-- ==== Sys2Proof/Word.lean ====
section
/-! DEFINITION. The widths of the block's data: 00_scope.md R8 (bytes), 30_encoding.md R57 (16-bit operands). -/

namespace Sys2Proof

/-- A byte: an unsigned 8-bit value (R8). Its `+` and `-` are the `+8` and `-8` of R9. -/
abbrev Byte := BitVec 8

/-- A 16-bit operand field: `off` or `len` (R57). -/
abbrev Half := BitVec 16

end Sys2Proof
end

