-- ==== Sys2Proof/Config.lean ====
section
/-! DEFINITION. What an implementation fixes and what the spec leaves open: the capacity CAP (00_scope.md R5) and the
fate of a source read that RESET withdraws (70_reset_and_hazards.md R172). -/

namespace Sys2Proof

/-- A legal capacity of the frame buffer: 4 <= CAP <= 65535 (R5). -/
abbrev Capacity := { n : Nat // 4 ≤ n ∧ n ≤ 65535 }

/-- How far CAP lies above its smallest legal value. No body: CAP is an open parameter (R5, D5).
UNVERIFIED value, safe: whatever is proved holds for every CAP (notes/assumptions/1.md). -/
opaque Config.capAboveMinimum : Fin 65532

/-- The parameter CAP of this block (R5). -/
def Config.cap : Capacity :=
  ⟨Config.capAboveMinimum.val + 4, Nat.le_add_left 4 _,
    Nat.succ_le_succ (Nat.add_le_add_right (Nat.le_of_lt_succ Config.capAboveMinimum.isLt) 3)⟩

/-- Whether the answer to the `k`-th source read that a RESET withdrew is lost (true) or reaches a later read (false).
No body: R172 and I10 leave it open. UNVERIFIED value, safe (notes/assumptions/5.md). -/
opaque Config.withdrawnAnswerLost : Nat → Bool

end Sys2Proof
end

