-- ==== Sys2Proof/Syntax.lean ====
section
/-! DEFINITION. The instructions of the block: one constructor per row of spec/opcode_table.json, that is the 16
commands of 30_encoding.md R59 and the 3 wire symbols of R62. -/

namespace Sys2Proof

/-- A command of the host port (R59) with its operands (R57), or a symbol of the wire stream (R62). -/
inductive Instr where
  /-- BUF_RD off (R80). -/
  | bufRd (off : Half)
  /-- BUF_WR off, v (R81). -/
  | bufWr (off : Half) (v : Byte)
  /-- BUF_RD_RANGE off, len (R82). -/
  | bufRdRange (off : Half) (len : Half)
  /-- BUF_WR_RANGE off, data (R83). -/
  | bufWrRange (off : Half) (data : List Byte)
  /-- SIZE_RD (R93). -/
  | sizeRd
  /-- SIZE_WR n (R94). -/
  | sizeWr (n : Byte)
  /-- PAYLOAD_RD (R95). -/
  | payloadRd
  /-- PAYLOAD_WR data (R96). -/
  | payloadWr (data : List Byte)
  /-- CSUM_RD (R107). -/
  | csumRd
  /-- CSUM_CALC (R108). -/
  | csumCalc
  /-- CSUM_STAMP (R109). -/
  | csumStamp
  /-- VALIDATE (R99). -/
  | validate
  /-- ENCODE (R121). -/
  | encode
  /-- DECODE (R125). -/
  | decode
  /-- READ_FRAME (R140). -/
  | readFrame
  /-- WRITE_FRAME (R144). -/
  | writeFrame
  /-- The SYNC symbol, wire byte 0xE0 (R62, R126). -/
  | wireSync
  /-- The ESCAPED symbol, wire bytes 0xD0, e (R62, R128). -/
  | wireEscaped (e : Byte)
  /-- The LITERAL symbol, wire byte w, not 0xD0 (R62, R127). -/
  | wireLiteral (w : Byte)
  deriving DecidableEq, Repr

end Sys2Proof
end

