-- ==== Sys2Proof/WellFormed.lean ====
section
/-! DEFINITION. Which instructions have an encoding: the operand ranges of 30_encoding.md R57 and the literal form of
R62. Operands of fixed width are in range by their types. -/

namespace Sys2Proof

/-- A `data` operand has 0 .. 65535 bytes (R57). -/
abbrev dataFits (data : List Byte) : Prop := data.length ≤ 65535

/-- The instruction is one the spec's encodings admit (R57, R62). -/
def WellFormed : Instr → Bool
  | .bufRd _ => true
  | .bufWr _ _ => true
  | .bufRdRange _ _ => true
  | .bufWrRange _ data => decide (dataFits data)
  | .sizeRd => true
  | .sizeWr _ => true
  | .payloadRd => true
  | .payloadWr data => decide (dataFits data)
  | .csumRd => true
  | .csumCalc => true
  | .csumStamp => true
  | .validate => true
  | .encode => true
  | .decode => true
  | .readFrame => true
  | .writeFrame => true
  | .wireSync => true
  | .wireEscaped _ => true
  | .wireLiteral w => decide (w ≠ 0xD0#8)

end Sys2Proof
end

