-- ==== Sys2Proof/Decode.lean ====
section
/-! DEFINITION. The two encodings of 30_encoding.md: the command transactions of the host port (R55 to R61) and the
symbols of the wire stream (R62 to R66); the decoder of both, total and rejecting by name, and after it the encoder. -/

namespace Sys2Proof

/-- The Sync Marker (R7). -/
abbrev SYNC : Byte := 0xE0#8

/-- The Escape Marker (R7). -/
abbrev ESC : Byte := 0xD0#8

/-- One operand field of a transaction, typed as in the table of R57. -/
inductive Operand where
  | off (x : Half)
  | len (x : Half)
  | v (x : Byte)
  | n (x : Byte)
  | data (l : List Byte)
  deriving DecidableEq, Repr

/-- A transaction on the host port: a code and the operand fields beside it, in the order of R59 (R55, R57). -/
structure Transaction where
  code : Byte
  operands : List Operand
  deriving DecidableEq, Repr

/-- An instruction in one of the two encodings. -/
inductive Encoded where
  /-- A command, on the host port (R55). -/
  | transaction (t : Transaction)
  /-- A symbol at the start of a frame (R62: the first wire byte of a frame). -/
  | firstSymbol (wire : List Byte)
  /-- A symbol after the sync (R62). -/
  | symbol (wire : List Byte)
  deriving DecidableEq, Repr

/-- Why the decoder gives no instruction. -/
inductive Reject where
  /-- The code is none of R59 (R60). -/
  | unassignedCode (code : Byte)
  /-- The operand fields do not match the shape the code takes (R57). -/
  | operandShape (code : Byte)
  /-- The first wire byte of a frame is not the Sync Marker (R126). -/
  | notSync (w : Byte)
  /-- The wire bytes end before the symbol does (R63). -/
  | truncated
  /-- Wire bytes are left over after the symbol (R63). -/
  | trailing
  deriving DecidableEq, Repr

/-- What the decoder answers. -/
inductive Decoded where
  | instr (i : Instr)
  | reject (r : Reject)
  deriving DecidableEq, Repr

/-- The families of commands (R56). -/
inductive Family where
  | bytePort
  | packetFields
  | checksum
  | validator
  | transcoder
  | stream
  deriving DecidableEq, Repr

/-- The family that bits [7:4] of a code name (R56). -/
def familyOf (code : Byte) : Option Family :=
  match (code.extractLsb' 4 4).toNat with
  | 0 => some .bytePort
  | 1 => some .packetFields
  | 2 => some .checksum
  | 3 => some .validator
  | 4 => some .transcoder
  | 5 => some .stream
  | _ => none

/-- The family an instruction stands in (R56, R59); a wire symbol is no command. -/
def familyOfInstr : Instr → Option Family
  | .bufRd _ => some .bytePort
  | .bufWr _ _ => some .bytePort
  | .bufRdRange _ _ => some .bytePort
  | .bufWrRange _ _ => some .bytePort
  | .sizeRd => some .packetFields
  | .sizeWr _ => some .packetFields
  | .payloadRd => some .packetFields
  | .payloadWr _ => some .packetFields
  | .csumRd => some .checksum
  | .csumCalc => some .checksum
  | .csumStamp => some .checksum
  | .validate => some .validator
  | .encode => some .transcoder
  | .decode => some .transcoder
  | .readFrame => some .stream
  | .writeFrame => some .stream
  | .wireSync => none
  | .wireEscaped _ => none
  | .wireLiteral _ => none

/-- The codes R59 assigns. -/
def assignedCodes : List Byte :=
  [0x01#8, 0x02#8, 0x03#8, 0x04#8, 0x10#8, 0x11#8, 0x12#8, 0x13#8, 0x20#8, 0x21#8, 0x22#8, 0x30#8, 0x40#8, 0x41#8,
    0x50#8, 0x51#8]

/-- The command of a transaction: the code alone says which operands it takes (R59, R61). A code outside R59 is
rejected whatever its operands (R154 item 1). -/
def decodeTransaction (t : Transaction) : Decoded :=
  match t.code.toNat with
  | 0x01 =>
    match t.operands with
    | [.off o] => .instr (.bufRd o)
    | _ => .reject (.operandShape t.code)
  | 0x02 =>
    match t.operands with
    | [.off o, .v b] => .instr (.bufWr o b)
    | _ => .reject (.operandShape t.code)
  | 0x03 =>
    match t.operands with
    | [.off o, .len l] => .instr (.bufRdRange o l)
    | _ => .reject (.operandShape t.code)
  | 0x04 =>
    match t.operands with
    | [.off o, .data d] => if dataFits d then .instr (.bufWrRange o d) else .reject (.operandShape t.code)
    | _ => .reject (.operandShape t.code)
  | 0x10 => noOperands t .sizeRd
  | 0x11 =>
    match t.operands with
    | [.n b] => .instr (.sizeWr b)
    | _ => .reject (.operandShape t.code)
  | 0x12 => noOperands t .payloadRd
  | 0x13 =>
    match t.operands with
    | [.data d] => if dataFits d then .instr (.payloadWr d) else .reject (.operandShape t.code)
    | _ => .reject (.operandShape t.code)
  | 0x20 => noOperands t .csumRd
  | 0x21 => noOperands t .csumCalc
  | 0x22 => noOperands t .csumStamp
  | 0x30 => noOperands t .validate
  | 0x40 => noOperands t .encode
  | 0x41 => noOperands t .decode
  | 0x50 => noOperands t .readFrame
  | 0x51 => noOperands t .writeFrame
  | _ => .reject (.unassignedCode t.code)
where
  /-- A command without operands (R59). -/
  noOperands (t : Transaction) (i : Instr) : Decoded :=
    match t.operands with
    | [] => .instr i
    | _ :: _ => .reject (.operandShape t.code)

/-- Where the next wire byte stands in its frame: the frame decoder reads a byte by its place (R62, R63). -/
inductive WirePlace where
  /-- The first byte of a frame. -/
  | first
  /-- After the sync, the first byte of a symbol. -/
  | start
  /-- The byte after an ESC. -/
  | operand
  deriving DecidableEq, Repr

/-- What one wire byte completes at its place (R62, R63). -/
inductive WireByte where
  /-- It completes this symbol. -/
  | symbol (i : Instr)
  /-- It is the first byte of a 2-byte symbol. -/
  | escape
  /-- It stands first in a frame and is not the Sync Marker. -/
  | notSync (w : Byte)
  deriving DecidableEq, Repr

/-- The reading of one wire byte (R62, R63; R65 item 2 for a 0xE0 after the sync). -/
def readWireByte (p : WirePlace) (w : Byte) : WireByte :=
  match p with
  | .first => if w = SYNC then .symbol .wireSync else .notSync w
  | .start => if w = ESC then .escape else .symbol (.wireLiteral w)
  | .operand => .symbol (.wireEscaped w)

/-- A symbol at the start of a frame, alone (R62). -/
def decodeFirst : List Byte → Decoded
  | [] => .reject .truncated
  | w :: rest =>
    if w = SYNC then (if rest = [] then .instr .wireSync else .reject .trailing) else .reject (.notSync w)

/-- A symbol after the sync, alone (R62, R63). -/
def decodeSymbol : List Byte → Decoded
  | [] => .reject .truncated
  | w :: rest =>
    if w = ESC then
      match rest with
      | [] => .reject .truncated
      | [e] => .instr (.wireEscaped e)
      | _ :: _ :: _ => .reject .trailing
    else if rest = [] then .instr (.wireLiteral w) else .reject .trailing

/-- The instruction of an encoded form, or the reason there is none. Total. -/
def decode : Encoded → Decoded
  | .transaction t => decodeTransaction t
  | .firstSymbol wire => decodeFirst wire
  | .symbol wire => decodeSymbol wire

/-- The encoding of an instruction: codes and operand order of R59, wire bytes of R62. -/
def encode : Instr → Encoded
  | .bufRd o => .transaction ⟨0x01#8, [.off o]⟩
  | .bufWr o b => .transaction ⟨0x02#8, [.off o, .v b]⟩
  | .bufRdRange o l => .transaction ⟨0x03#8, [.off o, .len l]⟩
  | .bufWrRange o d => .transaction ⟨0x04#8, [.off o, .data d]⟩
  | .sizeRd => .transaction ⟨0x10#8, []⟩
  | .sizeWr b => .transaction ⟨0x11#8, [.n b]⟩
  | .payloadRd => .transaction ⟨0x12#8, []⟩
  | .payloadWr d => .transaction ⟨0x13#8, [.data d]⟩
  | .csumRd => .transaction ⟨0x20#8, []⟩
  | .csumCalc => .transaction ⟨0x21#8, []⟩
  | .csumStamp => .transaction ⟨0x22#8, []⟩
  | .validate => .transaction ⟨0x30#8, []⟩
  | .encode => .transaction ⟨0x40#8, []⟩
  | .decode => .transaction ⟨0x41#8, []⟩
  | .readFrame => .transaction ⟨0x50#8, []⟩
  | .writeFrame => .transaction ⟨0x51#8, []⟩
  | .wireSync => .firstSymbol [SYNC]
  | .wireEscaped e => .symbol [ESC, e]
  | .wireLiteral w => .symbol [w]

/-- Operand fields of zeros of the shape a code takes (R57, R59): the operands of a table row, which the table gives
no bits (DESIGN CHOICE, notes/assumptions/9.md). -/
def zeroOperands (code : Byte) : List Operand :=
  match code.toNat with
  | 0x01 => [.off 0#16]
  | 0x02 => [.off 0#16, .v 0#8]
  | 0x03 => [.off 0#16, .len 0#16]
  | 0x04 => [.off 0#16, .data []]
  | 0x11 => [.n 0#8]
  | 0x13 => [.data []]
  | _ => []

/-- The encoded form of a table word: byte 0 is a command code where R59 assigns it, else the first byte of a wire
symbol (0xE0 at the start of a frame, 0xD0 with its operand in byte 1). The two encodings have no bits in common that
tell them apart, so the codes come first (DESIGN CHOICE, notes/assumptions/9.md). -/
def tableForm (nbits w : Nat) : Encoded :=
  let bits := w % 2 ^ nbits
  let b0 := BitVec.ofNat 8 bits
  if b0 ∈ assignedCodes then .transaction ⟨b0, zeroOperands b0⟩
  else if b0 = SYNC then .firstSymbol [b0]
  else if b0 = ESC then .symbol [b0, BitVec.ofNat 8 (bits / 256)]
  else .symbol [b0]

/-- The instruction the decoder reads from a word of spec/opcode_table.json. -/
def decodeTableWord (nbits w : Nat) : Option Instr :=
  match decode (tableForm nbits w) with
  | .instr i => some i
  | .reject _ => none

end Sys2Proof
end

