-- ==== Sys2Proof/Machine/State.lean ====
section
/-! DEFINITION. The state of the block (10_state.md R20 to R33), the data of the three outside agents that one
deterministic step needs (00_scope.md R4), the responses (30_encoding.md R58), and the state right after reset. -/

namespace Sys2Proof.Machine

/-- The frame buffer: the bytes that differ from what an unlisted offset reads as, by rising offset. -/
abbrev Memory := List Host.Cell

/-- DPHASE, the decoder's phase (R26). -/
inductive DPhase where
  | idle
  | sync
  | normal
  | escSeen
  deriving DecidableEq, Repr

/-- The commands that can stay BUSY across a wait (R28). -/
inductive WaitingCommand where
  | decode
  | readFrame
  | writeFrame
  deriving DecidableEq, Repr

/-- PORT, the state of the command port (R28). -/
inductive Port where
  | idle
  | busy (c : WaitingCommand)
  deriving DecidableEq, Repr

/-- An answer of the source to one read (R11). -/
inductive SourceAnswer where
  | byte (w : Byte)
  | eof
  | ioerr
  deriving DecidableEq, Repr

/-- An answer of the sink to one write (R12). -/
inductive SinkAnswer where
  | ok
  | ioerr
  deriving DecidableEq, Repr

/-- A move of the host (R4 item 1). DESIGN CHOICE: notes/assumptions/3.md, 18.md. -/
inductive HostMove where
  /-- Issues a command once the one before has its response (R55, R69). -/
  | command (t : Transaction)
  /-- Issues a command as `command` does, if the last response was OK, else nothing: a later command of a
  pseudo-command (R71). -/
  | ifOk (t : Transaction)
  /-- Asserts RESET now (R170). -/
  | reset
  /-- Makes no move at this step. -/
  | hold
  deriving DecidableEq, Repr

/-- The status of a response (R150). -/
inductive Status where
  | ok
  | outOfBounds
  | payloadTooLarge
  | frameSyncError
  | unexpectedEndOfStream
  | checksumMismatch
  | sizeError
  | ioError
  | illegalCommand
  deriving DecidableEq, Repr

/-- The `rdata` of a response: a result (R58, R59) or error information (R151). -/
inductive RData where
  | none
  | byte (b : Byte)
  | bytes (l : List Byte)
  /-- (off, n) of OUT_OF_BOUNDS. -/
  | bounds (off n : Nat)
  /-- n of PAYLOAD_TOO_LARGE. -/
  | length (n : Nat)
  /-- DIDX of UNEXPECTED_END_OF_STREAM. -/
  | position (didx : Nat)
  /-- (stored, computed) of CHECKSUM_MISMATCH. -/
  | checksums (stored computed : Byte)
  /-- (SOURCE, DIDX) of IO_ERROR. -/
  | atSource (didx : Nat)
  /-- SINK of IO_ERROR. -/
  | atSink
  deriving DecidableEq, Repr

/-- A response: the pair (status, rdata) (R58). -/
structure Response where
  status : Status
  rdata : RData
  deriving DecidableEq, Repr

/-- An error a command raises, with its information (R13, R151). -/
inductive Error where
  | outOfBounds (off n : Nat)
  | payloadTooLarge (n : Nat)
  | frameSyncError (w : Byte)
  | unexpectedEndOfStream (didx : Nat)
  | checksumMismatch (stored computed : Byte)
  | sizeError (s : Byte)
  | sourceError (didx : Nat)
  | sinkError
  | illegalCommand (code : Byte)
  deriving DecidableEq, Repr

/-- Why the machine stops with a fault. -/
inductive Fault where
  /-- Raised by the decoder's Store when DIDX is not below CAP. R129 says that it cannot happen, and no state that meets
  the invariant raises it. Safe: notes/assumptions/12.md. -/
  | bufferRange (off : Nat)
  deriving DecidableEq, Repr

/-- Why an instruction is given no meaning. -/
inductive Refusal where
  /-- Raised by exec for an instruction that has no meaning yet. Safe. -/
  | notModelled (mnemonic : String)
  /-- Raised by every command before the first RESET (R175, I6). Safe: notes/assumptions/6.md. -/
  | beforeFirstReset
  /-- Raised by every command while one is outstanding (R55, I11): the host has no such move, and the step never asks
  for it. Safe: notes/assumptions/7.md. -/
  | commandWhileBusy
  /-- Raised by the step for a transaction whose operands do not fit its code (R57, I12). Safe:
  notes/assumptions/8.md. -/
  | operandShape (code : Byte)
  /-- Raised by a wire symbol while no decode waits for the source (R124): the decoder has no step there. Safe:
  notes/assumptions/11.md. -/
  | decoderNotWaiting
  deriving DecidableEq, Repr

/-- The block's state (R20), then the model's own fields (notes/assumptions/2.md, 5.md, 6.md). -/
structure State where
  /-- CAP, the configuration value (R5, R29). -/
  cap : Capacity
  /-- BUF, the frame buffer (R21). -/
  buf : Memory
  /-- DPHASE (R26). -/
  dphase : DPhase
  /-- DIDX (R27). -/
  didx : Nat
  /-- PORT (R28). -/
  port : Port
  /-- Whether RESET has been asserted since power-up (R175). -/
  resetDone : Bool
  /-- The host's moves to come. -/
  host : List HostMove
  /-- The source's answers to the reads to come (R11). Where the list is empty, the source does not answer. -/
  source : List SourceAnswer
  /-- The sink's answers to the writes to come (R12). Where the list is empty, the sink does not answer. -/
  sink : List SinkAnswer
  /-- The responses the host got, oldest first (R55). -/
  responses : List Response
  /-- The byte lists handed to the sink, oldest first (R12). -/
  sinkGot : List (List Byte)
  /-- How often a free value has been drawn. -/
  draws : Nat
  deriving DecidableEq, Repr

/-- What an instruction or a step answers. -/
abbrev Result := Host.Outcome State Fault Refusal

/-- The machine right after reset, at a given capacity (R33): nothing listed in the buffer, decoder and port idle; no
outside agent has done anything (DESIGN CHOICE, notes/assumptions/2.md). -/
def State.resetOf (cap : Capacity) : State where
  cap := cap
  buf := []
  dphase := .idle
  didx := 0
  port := .idle
  resetDone := true
  host := []
  source := []
  sink := []
  responses := []
  sinkGot := []
  draws := 0

/-- The machine right after reset (R33), at the open capacity (R5). -/
def State.reset : State := State.resetOf Config.cap

end Sys2Proof.Machine
end

