-- ==== Sys2Proof/Machine/Ops.lean ====
section
/-! DEFINITION. The named operations every meaning is made of: the buffer primitives (00_scope.md R10), responding,
raising an error and aborting a decode (R13, 43_transcoder.md R133, 60_exceptions.md R150 to R158), acceptance on the
command port (10_state.md R28) and RESET (70_reset_and_hazards.md R170 to R172). -/

namespace Sys2Proof.Machine

/-! ### The buffer -/

/-- What an unlisted offset reads as: the reset value of every buffer byte (R21, R33). -/
def Memory.unlisted : Byte := 0x00#8

/-- The canonical form: offsets strictly rising, and no entry equal to what an unlisted offset reads as. -/
abbrev Memory.wf (m : Memory) : Prop :=
  m.Pairwise (fun c d => c.1 < d.1) ∧ ∀ c ∈ m, c.2 ≠ Memory.unlisted

/-- The byte at offset `i`. -/
def Memory.read : Memory → Nat → Byte
  | [], _ => Memory.unlisted
  | (a, b) :: m, i => if a = i then b else Memory.read m i

/-- The entry `(i, v)` put before the first entry of a higher offset. -/
def Memory.insert : Memory → Nat → Byte → Memory
  | [], i, v => [(i, v)]
  | (a, b) :: m, i, v => if i < a then (i, v) :: (a, b) :: m else (a, b) :: Memory.insert m i v

/-- No entry at offset `i`. -/
def Memory.erase (m : Memory) (i : Nat) : Memory := m.filter (fun c => c.1 != i)

/-- Byte `v` written at offset `i`. -/
def Memory.write (m : Memory) (i : Nat) (v : Byte) : Memory :=
  if v = Memory.unlisted then Memory.erase m i else Memory.insert (Memory.erase m i) i v

/-- The bytes of a list written at rising offsets from `off` (R10, R42 item 1). -/
def Memory.writeList (m : Memory) (off : Nat) : List Byte → Memory
  | [] => m
  | b :: bs => Memory.writeList (Memory.write m off b) (off + 1) bs

/-- `BUF[i]` (R10). -/
def byteAt (s : State) (i : Nat) : Byte := Memory.read s.buf i

/-- `BUF[i] <- v` (R10). -/
def setByte (i : Nat) (v : Byte) (s : State) : State := { s with buf := Memory.write s.buf i v }

/-- `MemRead(off, n)` (R10). -/
def memRead (s : State) (off n : Nat) : List Byte := (List.range n).map (fun k => byteAt s (off + k))

/-- `MemWrite(off, len(data), data)` (R10). -/
def memWrite (off : Nat) (data : List Byte) (s : State) : State := { s with buf := Memory.writeList s.buf off data }

/-! ### Responses and errors -/

/-- The number of a status (R150). -/
def Status.code : Status → Byte
  | .ok => 0x00#8
  | .outOfBounds => 0x01#8
  | .payloadTooLarge => 0x02#8
  | .frameSyncError => 0x03#8
  | .unexpectedEndOfStream => 0x04#8
  | .checksumMismatch => 0x05#8
  | .sizeError => 0x06#8
  | .ioError => 0x07#8
  | .illegalCommand => 0x08#8

/-- The status an error is reported with (R150). -/
def Error.status : Error → Status
  | .outOfBounds _ _ => .outOfBounds
  | .payloadTooLarge _ => .payloadTooLarge
  | .frameSyncError _ => .frameSyncError
  | .unexpectedEndOfStream _ => .unexpectedEndOfStream
  | .checksumMismatch _ _ => .checksumMismatch
  | .sizeError _ => .sizeError
  | .sourceError _ => .ioError
  | .sinkError => .ioError
  | .illegalCommand _ => .illegalCommand

/-- The error information of a response (R151). -/
def Error.rdata : Error → RData
  | .outOfBounds off n => .bounds off n
  | .payloadTooLarge n => .length n
  | .frameSyncError w => .byte w
  | .unexpectedEndOfStream didx => .position didx
  | .checksumMismatch stored computed => .checksums stored computed
  | .sizeError s => .byte s
  | .sourceError didx => .atSource didx
  | .sinkError => .atSink
  | .illegalCommand code => .byte code

/-- The response an error makes (R13). -/
def Error.response (e : Error) : Response := ⟨e.status, e.rdata⟩

/-- A response given to the host: the command is over (R28, R58). -/
def deliver (r : Response) (s : State) : State := { s with port := .idle, responses := s.responses ++ [r] }

/-- `respond(OK, data)` (R13). -/
def respond (d : RData) (s : State) : Result := .next (deliver ⟨.ok, d⟩ s)

/-- `raise E(info)`: the one way a command ends in an error. The response carries the status, PORT is IDLE, and what was
written stays written (R13, R156, R157). There is nothing to return from (R158). -/
def raise (e : Error) (s : State) : Result := .next (deliver e.response s)

/-- The decoder's phase and position. -/
def setDecoder (p : DPhase) (i : Nat) (s : State) : State := { s with dphase := p, didx := i }

/-- The end of a decode: DPHASE and DIDX at their idle values (R131, R133). -/
def endDecode (s : State) : State := setDecoder .idle 0 s

/-- `abort(E(info))`: the end of a decode with an error (R133). -/
def abort (e : Error) (s : State) : Result := raise e (endDecode s)

/-! ### The command port -/

/-- Why the port does not accept a command, if it does not: no command has a meaning before the first RESET (R175), and
a command is accepted only when PORT = IDLE (R28, R55). -/
def turnedAway (s : State) : Option Refusal :=
  if s.resetDone = false then some .beforeFirstReset
  else if s.port = .idle then none
  else some .commandWhileBusy

/-- A command that the port accepts answers `r`. -/
def accepted (s : State) (r : Result) : Result :=
  match turnedAway s with
  | some why => .refused why
  | none => r

/-- PORT becomes BUSY with a command that waits (R28). -/
def setBusy (c : WaitingCommand) (s : State) : State := { s with port := .busy c }

/-- The block waits for the source: DECODE or READ_FRAME is in progress and the decoder is in SYNC, NORMAL or ESCSEEN
(R28, R124). -/
def awaitsSource (s : State) : Bool :=
  s.resetDone && (s.port == .busy .decode || s.port == .busy .readFrame) && s.dphase != .idle

/-- The block waits for the sink: WRITE_FRAME is in progress (R28, R144). -/
def awaitsSink (s : State) : Bool := s.resetDone && s.port == .busy .writeFrame

/-- A byte list handed to the sink in one write (R12); the answer comes in a later step. -/
def handToSink (l : List Byte) (s : State) : State := { s with sinkGot := s.sinkGot ++ [l] }

/-! ### RESET -/

/-- A pending source read is withdrawn: whether its answer reaches a later read is open (R172, I10), a free value. -/
def withdrawRead (s : State) : State :=
  if awaitsSource s then
    { s with source := if Config.withdrawnAnswerLost s.draws then s.source.tail else s.source, draws := s.draws + 1 }
  else s

/-- RESET: every item of the block's state at its reset value, CAP unchanged, and no response to a command in progress
(R33, R171, R172). -/
def resetBlock (s : State) : State :=
  { withdrawRead s with buf := [], dphase := .idle, didx := 0, port := .idle, resetDone := true }

end Sys2Proof.Machine
end

