-- ==== Sys2Proof/Machine/Operands.lean ====
section
/-! DEFINITION. What operands and fields are read as: the bounds check (20_memory.md R45), the field map
(10_state.md R22) and the size-field validator (41_packet.md R91, R92). The block has no flag (10_state.md R30), so
there is no flag computation beside it. -/

namespace Sys2Proof.Machine

/-- An access of width `n` at offset `off` is in range: computed on exact natural numbers (R45). -/
abbrev inRange (s : State) (off n : Nat) : Prop := off + n ≤ s.cap.val

/-- A byte-port command past its bounds check, the only check it makes (R80 to R83). -/
def withinBounds (s : State) (off n : Nat) (r : Result) : Result :=
  if inRange s off n then r else raise (.outOfBounds off n) s

/-- The Sync Marker's offset (R22). -/
abbrev offSync : Nat := 0

/-- The node address's offset (R22). -/
abbrev offAddr : Nat := 1

/-- The size field's offset (R22). -/
abbrev offSize : Nat := 2

/-- The payload's first offset (R22). -/
abbrev offPay : Nat := 3

/-- `CK(s)`, the checksum's offset in a frame of size s (R22). -/
def offCk (n : Nat) : Nat := 2 + n

/-- `MAX_SIZE` (R6). -/
def maxSize (s : State) : Nat := min 255 (s.cap.val - 3)

/-- `MAX_PAYLOAD` (R6). -/
def maxPayload (s : State) : Nat := maxSize s - 1

/-- The size field, the byte at offset 2 (R22). -/
def sizeField (s : State) : Byte := byteAt s offSize

/-- `SizeOK` (R91). -/
abbrev sizeOK (s : State) (z : Byte) : Prop := 1 ≤ z.toNat ∧ z.toNat ≤ maxSize s

/-- A command that uses the size-derived layout, past its check of the size field (R92). -/
def withLayout (s : State) (k : Nat → Result) : Result :=
  if sizeOK s (sizeField s) then k (sizeField s).toNat else raise (.sizeError (sizeField s)) s

end Sys2Proof.Machine
end

