-- ==== Sys2Proof/Machine/Codec.lean ====
section
/-! DEFINITION. The checksum function (42_checksum.md R105, R106), the escape codec and the wire image
(43_transcoder.md R115 to R118). -/

namespace Sys2Proof.Machine

/-- The mod-256 sum of a byte list, from 0x00 (R105). -/
def sumBytes (l : List Byte) : Byte := l.foldl (fun acc b => acc + b) 0x00#8

/-- `Sum(n)`: the checksum of a frame of size n, over offsets 1 .. 1 + n (R14, R105). -/
def frameSum (s : State) (n : Nat) : Byte := sumBytes (memRead s offAddr (n + 1))

/-- The stored checksum of a frame of size n (R22). -/
def storedSum (s : State) (n : Nat) : Byte := byteAt s (offCk n)

/-- The checksum computed and stored (R109). -/
def stamp (n : Nat) (s : State) : State := setByte (offCk n) (frameSum s n) s

/-- The escape function (R115). -/
def esc (b : Byte) : List Byte := if b = SYNC ∨ b = ESC then [ESC, b - 1#8] else [b]

/-- The unescape function (R117). -/
def unesc (e : Byte) : Byte := e + 1#8

/-- `Wire(BUF)` of a frame of size n: the sync, then offsets 1 .. 2 + n escaped (R118). -/
def wireImage (s : State) (n : Nat) : List Byte := SYNC :: (memRead s offAddr (n + 2)).flatMap esc

end Sys2Proof.Machine
end

