-- ==== Sys2Proof/Machine/Decoder.lean ====
section
/-! DEFINITION. The frame decoder: one row of the table of 43_transcoder.md R123 per answer of the source (R126 to R133),
and READ_FRAME's check on completion (44_stream.md R140, R141). -/

namespace Sys2Proof.Machine

/-- READ_FRAME's check of a complete frame, in the completing step (R140, R141). -/
def checkFrame (s : State) : Result :=
  let n := (sizeField s).toNat
  if storedSum s n = frameSum s n then respond .none s
  else raise (.checksumMismatch (storedSum s n) (frameSum s n)) s

/-- The frame is complete (R131): the decode is over; READ_FRAME goes on to its check, DECODE responds OK. -/
def completeFrame (s : State) : Result :=
  match s.port with
  | .busy .readFrame => checkFrame (endDecode s)
  | _ => respond .none (endDecode s)

/-- `Store(v)` (R129): the size byte is checked as it arrives, and the byte at offset 2 + BUF[2] completes the frame
(R130). -/
def store (v : Byte) (s : State) : Result :=
  if s.didx < s.cap.val then
    let t := setByte s.didx v s
    if s.didx = offSize ∧ ¬ sizeOK t v then abort (.sizeError v) t
    else if offPay ≤ s.didx ∧ s.didx = offCk (sizeField t).toNat then completeFrame t
    else .next (setDecoder .normal (s.didx + 1) t)
  else .fault (.bufferRange s.didx)

/-- The sync step on the Sync Marker (R126). -/
def acceptSync (s : State) : State := setDecoder .normal 1 (setByte offSync SYNC s)

/-- The answer `Byte(w)`: one row of R123 (R126 to R128). -/
def takeByte (w : Byte) (s : State) : Result :=
  if awaitsSource s then
    match s.dphase with
    | .idle => .refused .decoderNotWaiting
    | .sync => if w = SYNC then .next (acceptSync s) else abort (.frameSyncError w) s
    | .normal => if w = ESC then .next (setDecoder .escSeen s.didx s) else store w s
    | .escSeen => store (unesc w) s
  else .refused .decoderNotWaiting

/-- The answer EOF: the decode ends with UNEXPECTED_END_OF_STREAM(DIDX) (R123). -/
def takeEof (s : State) : Result := abort (.unexpectedEndOfStream s.didx) s

/-- The answer IOERR: the decode ends with IO_ERROR(SOURCE, DIDX) (R123). -/
def takeSourceError (s : State) : Result := abort (.sourceError s.didx) s

/-- The answer of the sink to WRITE_FRAME's write (R144). -/
def takeSinkAnswer (a : SinkAnswer) (s : State) : Result :=
  match a with
  | .ok => respond .none s
  | .ioerr => raise .sinkError s

/-- Where the next wire byte stands, by the decoder's phase (R123). The decoder asks for no byte in IDLE (R124). -/
def wirePlace : DPhase → WirePlace
  | .idle => .first
  | .sync => .first
  | .normal => .start
  | .escSeen => .operand

end Sys2Proof.Machine
end

