-- ==== Sys2Proof/Machine/Agents.lean ====
section
/-! DEFINITION. Which outside agent moves next and with what (00_scope.md R4, 60_exceptions.md R155), how a transaction
that is no command is answered (30_encoding.md R57, R60), the pseudo-commands (R71), and how an instruction is placed
where the next step takes it. -/

namespace Sys2Proof.Machine

/-- What happens at a step. -/
inductive Event where
  /-- The host asserts RESET. -/
  | reset
  /-- The host offers a transaction. -/
  | offer (t : Transaction)
  /-- The source answers the pending read. -/
  | sourceAnswers (a : SourceAnswer)
  /-- The sink answers the pending write. -/
  | sinkAnswers (a : SinkAnswer)
  /-- Nothing: the block waits for a command or an answer that does not come (R183). -/
  | quiet
  deriving DecidableEq, Repr

/-- An event and the state once the agent has moved. -/
structure Turn where
  event : Event
  after : State
  deriving DecidableEq, Repr

/-- The turn of the source or the sink, where the block waits for one (R124, R144). Without an answer nothing happens
(R183, notes/assumptions/4.md). -/
def answerTurn (s : State) : Turn :=
  if awaitsSource s then
    match s.source with
    | [] => ⟨.quiet, s⟩
    | a :: rest => ⟨.sourceAnswers a, { s with source := rest }⟩
  else if awaitsSink s then
    match s.sink with
    | [] => ⟨.quiet, s⟩
    | a :: rest => ⟨.sinkAnswers a, { s with sink := rest }⟩
  else ⟨.quiet, s⟩

/-- The port is not held by a command: a command offered now is no second one (R55). Before the first RESET PORT is
unknown and holds nothing back (R175). -/
def portFree (s : State) : Bool := s.port == .idle || !s.resetDone

/-- The last response given was OK, or none has been given (R71). -/
def lastOk (s : State) : Bool :=
  match s.responses.getLast? with
  | none => true
  | some r => r.status == .ok

/-- The next turn. RESET wins over whatever else could happen (R155); a command waits until the port is free (R55). -/
def nextTurn (s : State) : Turn :=
  match s.host with
  | [] => answerTurn s
  | .hold :: rest => answerTurn { s with host := rest }
  | .reset :: rest => ⟨.reset, { s with host := rest }⟩
  | .command t :: rest => if portFree s then ⟨.offer t, { s with host := rest }⟩ else answerTurn s
  | .ifOk t :: rest =>
    if portFree s then
      if lastOk s then ⟨.offer t, { s with host := rest }⟩ else ⟨.quiet, { s with host := rest }⟩
    else answerTurn s

/-- A transaction that decodes to no command: an unassigned code is answered ILLEGAL_COMMAND with no other effect
(R60, R153); one of a wrong shape is not a command at all (R57). -/
def rejectTransaction (r : Reject) (t : Transaction) (s : State) : Result :=
  match r with
  | .unassignedCode code => accepted s (raise (.illegalCommand code) s)
  | .operandShape code => .refused (.operandShape code)
  | .notSync _ => .refused (.operandShape t.code)
  | .truncated => .refused (.operandShape t.code)
  | .trailing => .refused (.operandShape t.code)

/-- The pseudo-commands (R71). -/
inductive Pseudo where
  | rawRd
  | load (data : List Byte)
  | pack (data : List Byte)
  | send (data : List Byte)
  deriving DecidableEq, Repr

/-- The transactions a pseudo-command stands for (R71). -/
def pseudoMoves (cap : Capacity) : Pseudo → List HostMove
  | .rawRd => [.command ⟨0x03#8, [.off 0#16, .len (BitVec.ofNat 16 cap.val)]⟩]
  | .load data => [.command ⟨0x04#8, [.off 0#16, .data data]⟩]
  | .pack data => [.command ⟨0x13#8, [.data data]⟩, .ifOk ⟨0x22#8, []⟩]
  | .send data => [.command ⟨0x13#8, [.data data]⟩, .ifOk ⟨0x51#8, []⟩]

/-- The state in which the next step takes this encoded instruction, and otherwise as `s` is: a command is the host's next
move, with the port idle; a wire symbol is the source's next answer to a DECODE that has come to the symbol's place
(notes/assumptions/10.md). -/
def placeEncoded (x : Encoded) (s : State) : State :=
  match x with
  | .transaction t => { s with resetDone := true, port := .idle, host := .command t :: s.host }
  | .firstSymbol wire => awaiting .sync 0 wire
  | .symbol (w :: e :: _) => awaiting (if w = ESC then .escSeen else .normal) 1 [if w = ESC then e else w]
  | .symbol wire => awaiting .normal 1 wire
where
  /-- A DECODE that waits for the source at a phase and position, the source answering these bytes first. -/
  awaiting (p : DPhase) (i : Nat) (wire : List Byte) : State :=
    { s with
      resetDone := true, port := .busy .decode, dphase := p, didx := i, host := .hold :: s.host
      source := wire.map .byte ++ s.source }

end Sys2Proof.Machine
end

