-- ==== Sys2Proof/Machine/ByteView.lean ====
section
/-! DEFINITION. The byte-port commands (40_byteview.md R80 to R84). -/

namespace Sys2Proof.Machine

/-- BUF_RD (R80). -/
def execBufRd (off : Half) (s : State) : Result :=
  accepted s (withinBounds s off.toNat 1 (respond (.byte (byteAt s off.toNat)) s))

/-- BUF_WR (R81). -/
def execBufWr (off : Half) (v : Byte) (s : State) : Result :=
  accepted s (withinBounds s off.toNat 1 (respond .none (setByte off.toNat v s)))

/-- BUF_RD_RANGE (R82). -/
def execBufRdRange (off : Half) (len : Half) (s : State) : Result :=
  accepted s (withinBounds s off.toNat len.toNat (respond (.bytes (memRead s off.toNat len.toNat)) s))

/-- BUF_WR_RANGE: the check precedes every write (R83). -/
def execBufWrRange (off : Half) (data : List Byte) (s : State) : Result :=
  accepted s (withinBounds s off.toNat data.length (respond .none (memWrite off.toNat data s)))

end Sys2Proof.Machine
end

