-- ==== Sys2Proof/Machine/Checksum.lean ====
section
/-! DEFINITION. The checksum commands (42_checksum.md R105 to R112). -/

namespace Sys2Proof.Machine

/-- CSUM_RD (R107). -/
def execCsumRd (s : State) : Result := accepted s (withLayout s (fun n => respond (.byte (storedSum s n)) s))

/-- CSUM_CALC (R108). -/
def execCsumCalc (s : State) : Result := accepted s (withLayout s (fun n => respond (.byte (frameSum s n)) s))

/-- CSUM_STAMP (R109). -/
def execCsumStamp (s : State) : Result := accepted s (withLayout s (fun n => respond .none (stamp n s)))

end Sys2Proof.Machine
end

