-- ==== Sys2Proof/Machine/Packet.lean ====
section
/-! DEFINITION. The packet-field commands and the validity check (41_packet.md R90 to R100). -/

namespace Sys2Proof.Machine

/-- SIZE_RD (R93). -/
def execSizeRd (s : State) : Result := accepted s (respond (.byte (sizeField s)) s)

/-- SIZE_WR: any value is written (R94). -/
def execSizeWr (n : Byte) (s : State) : Result := accepted s (respond .none (setByte offSize n s))

/-- PAYLOAD_RD (R95). -/
def execPayloadRd (s : State) : Result :=
  accepted s (withLayout s (fun n => respond (.bytes (memRead s offPay (n - 1))) s))

/-- The payload written and the size derived from it (R96). -/
def putPayload (data : List Byte) (s : State) : State :=
  setByte offSize (BitVec.ofNat 8 (data.length + 1)) (memWrite offPay data s)

/-- PAYLOAD_WR (R96, R97). -/
def execPayloadWr (data : List Byte) (s : State) : Result :=
  accepted s
    (if data.length ≤ maxPayload s then respond .none (putPayload data s)
    else raise (.payloadTooLarge data.length) s)

/-- The verdict of VALIDATE: the size is legal and the stored checksum is the computed one (R99). -/
def frameValid (s : State) : Bool :=
  decide (sizeOK s (sizeField s)) && storedSum s (sizeField s).toNat == frameSum s (sizeField s).toNat

/-- VALIDATE: a boolean as one byte, never an error (R58, R99). -/
def execValidate (s : State) : Result :=
  accepted s (respond (.byte (if frameValid s then 0x01#8 else 0x00#8)) s)

end Sys2Proof.Machine
end

