-- ==== Sys2Proof/Machine/Transcoder.lean ====
section
/-! DEFINITION. The transcoder commands (43_transcoder.md R121, R122, R125). -/

namespace Sys2Proof.Machine

/-- ENCODE: the wire image goes to the host; nothing is stamped (R121, R122). -/
def execEncode (s : State) : Result := accepted s (withLayout s (fun n => respond (.bytes (wireImage s n)) s))

/-- A decode begins: the acceptance step of DECODE and READ_FRAME (R125, R140). -/
def startDecode (c : WaitingCommand) (s : State) : State := setDecoder .sync 0 (setBusy c s)

/-- DECODE: its acceptance step; then one step per answer of the source (R125). -/
def execDecode (s : State) : Result := accepted s (.next (startDecode .decode s))

end Sys2Proof.Machine
end

