-- ==== Sys2Proof/Machine/Stream.lean ====
section
/-! DEFINITION. The stream commands (44_stream.md R140 to R146). -/

namespace Sys2Proof.Machine

/-- READ_FRAME: its acceptance step; then the steps of DECODE, with the check on completion (R140). -/
def execReadFrame (s : State) : Result := accepted s (.next (startDecode .readFrame s))

/-- The step of WRITE_FRAME that stamps, encodes and hands the wire image to the sink (R144). -/
def startWrite (n : Nat) (s : State) : State :=
  setBusy .writeFrame (handToSink (wireImage (stamp n s) n) (stamp n s))

/-- WRITE_FRAME: its acceptance step; the sink's answer ends it in a later step (R144, R46). -/
def execWriteFrame (s : State) : Result := accepted s (withLayout s (fun n => .next (startWrite n s)))

end Sys2Proof.Machine
end

