-- ==== Sys2Proof/Machine/Wire.lean ====
section
/-! DEFINITION. The wire symbols as instructions of the frame decoder (30_encoding.md R62 to R65, 43_transcoder.md R123):
a symbol's meaning is what its wire bytes do to the decoder (notes/assumptions/11.md). -/

namespace Sys2Proof.Machine

/-- WIRE_SYNC (R126). After the sync its byte 0xE0 is data (R65 item 2, R127, R128). -/
def execWireSync (s : State) : Result := takeByte SYNC s

/-- A second wire byte taken after a first, if the decode goes on (R134: a decode that ends takes no further byte). -/
def thenTake (e : Byte) (r : Result) : Result :=
  match r with
  | .next t => if awaitsSource t then takeByte e t else .next t
  | .fault f => .fault f
  | .refused w => .refused w

/-- WIRE_ESCAPED e (R127, R128). In ESCSEEN the escape byte has been taken already and the operand completes the symbol;
elsewhere both wire bytes are taken, one after the other. -/
def execWireEscaped (e : Byte) (s : State) : Result :=
  if s.dphase = .escSeen then takeByte e s else thenTake e (takeByte ESC s)

/-- WIRE_LITERAL w (R127). First in a frame it is a FRAME_SYNC_ERROR (R126). -/
def execWireLiteral (w : Byte) (s : State) : Result := takeByte w s

end Sys2Proof.Machine
end

