-- ==== Sys2Proof/Machine/Dispatch.lean ====
section
/-! DEFINITION. The meaning of every instruction, one arm per constructor. -/

namespace Sys2Proof.Machine

def exec (i : Instr) (s : State) : Host.Outcome State Fault Refusal :=
  match i with
  | .bufRd off => Sys2Proof.Machine.execBufRd off s
  | .bufWr off v => Sys2Proof.Machine.execBufWr off v s
  | .bufRdRange off len => Sys2Proof.Machine.execBufRdRange off len s
  | .bufWrRange off data => Sys2Proof.Machine.execBufWrRange off data s
  | .sizeRd => Sys2Proof.Machine.execSizeRd s
  | .sizeWr n => Sys2Proof.Machine.execSizeWr n s
  | .payloadRd => Sys2Proof.Machine.execPayloadRd s
  | .payloadWr data => Sys2Proof.Machine.execPayloadWr data s
  | .csumRd => Sys2Proof.Machine.execCsumRd s
  | .csumCalc => Sys2Proof.Machine.execCsumCalc s
  | .csumStamp => Sys2Proof.Machine.execCsumStamp s
  | .validate => Sys2Proof.Machine.execValidate s
  | .encode => Sys2Proof.Machine.execEncode s
  | .decode => Sys2Proof.Machine.execDecode s
  | .readFrame => Sys2Proof.Machine.execReadFrame s
  | .writeFrame => Sys2Proof.Machine.execWriteFrame s
  | .wireSync => Sys2Proof.Machine.execWireSync s
  | .wireEscaped e => Sys2Proof.Machine.execWireEscaped e s
  | .wireLiteral w => Sys2Proof.Machine.execWireLiteral w s

end Sys2Proof.Machine
end

