-- ==== Sys2Proof/Machine/Step.lean ====
section
/-! DEFINITION. One step of the machine: one move of an outside agent and what the block does with it (00_scope.md R4). -/

namespace Sys2Proof.Machine

/-- One step (R4, R46, R125, R144). -/
def step (s : State) : Host.Outcome State Fault Refusal :=
  let turn := nextTurn s
  match turn.event with
  | .reset => .next (resetBlock turn.after)
  | .offer t =>
    match decode (.transaction t) with
    | .instr i => exec i turn.after
    | .reject r => rejectTransaction r t turn.after
  | .sourceAnswers (.byte w) =>
    match readWireByte (wirePlace turn.after.dphase) w with
    | .symbol i => exec i turn.after
    | .escape => takeByte w turn.after
    | .notSync _ => takeByte w turn.after
  | .sourceAnswers .eof => takeEof turn.after
  | .sourceAnswers .ioerr => takeSourceError turn.after
  | .sinkAnswers a => takeSinkAnswer a turn.after
  | .quiet => .next turn.after

/-- The instruction of a table word placed where the next step takes it. -/
def State.withFetchWord (s : State) (nbits w : Nat) : State := placeEncoded (tableForm nbits w) s

end Sys2Proof.Machine
end

