-- ==== Sys2Proof/Safety.lean ====
section
/-! DEFINITION. The terms claims are stated in: when the port takes a command, what a command leaves alone, what a step
that stores a logical byte does, and the invariant of the block. -/

namespace Sys2Proof.Machine

/-- The port takes a command: RESET has been asserted since power-up (R175) and PORT is IDLE (R28). -/
def Ready (s : State) : Prop := s.resetDone = true ∧ s.port = .idle

/-- Every buffer byte reads the same. -/
def SameBytes (s t : State) : Prop := ∀ i, byteAt t i = byteAt s i

/-- Every buffer byte outside the offsets `off .. off + n - 1` reads the same. -/
def SameBytesOutside (off n : Nat) (s t : State) : Prop := ∀ i, i < off ∨ off + n ≤ i → byteAt t i = byteAt s i

/-- The decoder's hidden state is the same (R26, R27). -/
def SameDecoder (s t : State) : Prop := t.dphase = s.dphase ∧ t.didx = s.didx

/-- The outside agents are as they were: the host's moves, the source, the sink and what was handed to it. -/
def SameOutside (s t : State) : Prop :=
  t.host = s.host ∧ t.source = s.source ∧ t.sink = s.sink ∧ t.sinkGot = s.sinkGot ∧ t.draws = s.draws

/-- CAP and the fact of the first RESET are as they were. -/
def SameBlock (s t : State) : Prop := t.cap = s.cap ∧ t.resetDone = s.resetDone

/-- The command is over with exactly this response (R13, R28, R55). -/
def Responds (r : Response) (s t : State) : Prop := t.port = .idle ∧ t.responses = s.responses ++ [r]

/-- The command is over in one step with this response, and nothing but the buffer can have changed beside it. -/
def AnswersInOneStep (r : Response) (s t : State) : Prop :=
  Responds r s t ∧ SameDecoder s t ∧ SameOutside s t ∧ SameBlock s t

/-- The two commands that run the decoder (R124). -/
def Decoding (s : State) : Prop := s.port = .busy .decode ∨ s.port = .busy .readFrame

/-- The response that ends a complete frame (R131, R140): READ_FRAME compares the stored checksum with the sum, DECODE does
not. -/
def completionResponse (port : Port) (t : State) : Response :=
  let n := (sizeField t).toNat
  if port = .busy .readFrame ∧ storedSum t n ≠ frameSum t n then
    ⟨.checksumMismatch, .checksums (storedSum t n) (frameSum t n)⟩
  else ⟨.ok, .none⟩

/-- The decode is over with this response (R131, R133). -/
def DecodeEnds (r : Response) (s t : State) : Prop := Responds r s t ∧ t.dphase = .idle ∧ t.didx = 0

/-- What a step that stores the logical byte `v` does (R129, R130, R131, R133): the byte stands at DIDX and no other byte
changes; a size byte that fails SizeOK ends the decode; the byte at offset 2 + BUF[2] completes the frame; else the
decoder goes on at the next offset. -/
def StoresLogicalByte (v : Byte) (s t : State) : Prop :=
  byteAt t s.didx = v ∧ SameBytesOutside s.didx 1 s t ∧ SameOutside s t ∧ SameBlock s t ∧
    ((s.didx = 2 ∧ ¬ sizeOK s v ∧ DecodeEnds ⟨.sizeError, .byte v⟩ s t) ∨
      (3 ≤ s.didx ∧ s.didx = 2 + (byteAt s 2).toNat ∧ DecodeEnds (completionResponse s.port t) s t) ∨
      (¬ (s.didx = 2 ∧ ¬ sizeOK s v) ∧ ¬ (3 ≤ s.didx ∧ s.didx = 2 + (byteAt s 2).toNat) ∧
        t.dphase = .normal ∧ t.didx = s.didx + 1 ∧ t.port = s.port ∧ t.responses = s.responses))

/-- The host makes no move of its own while a command is in progress: it has none left, or waits to issue the next command
(R55, R69). -/
def HostWaits (s : State) : Prop := ∀ m rest, s.host = m :: rest → m ≠ .reset ∧ m ≠ .hold

/-- What the decoder's hidden state says of PORT and the buffer (R26 to R28, R124, R129). -/
def DecoderInv (s : State) : Prop :=
  match s.dphase with
  | .idle => s.didx = 0 ∧ ¬ Decoding s
  | .sync => s.didx = 0 ∧ Decoding s
  | .normal => InFrame s
  | .escSeen => InFrame s
where
  /-- Past the sync: DIDX is in the frame, the sync stands at offset 0, and a size byte that has been stored is legal. -/
  InFrame (s : State) : Prop :=
    Decoding s ∧ byteAt s 0 = SYNC ∧ 1 ≤ s.didx ∧ s.didx ≤ 2 + maxSize s ∧
      (3 ≤ s.didx → sizeOK s (sizeField s) ∧ s.didx ≤ 2 + (sizeField s).toNat)

/-- While WRITE_FRAME waits, the frame is legal and stamped, and what was handed to the sink last is its wire image
(R51, R144). -/
def WriteInv (s : State) : Prop :=
  s.port = .busy .writeFrame →
    sizeOK s (sizeField s) ∧ storedSum s (sizeField s).toNat = frameSum s (sizeField s).toNat ∧
      s.sinkGot.getLast? = some (wireImage s (sizeField s).toNat)

/-- The invariant: the buffer is in canonical form and lists no offset at or above CAP; once RESET has been asserted, the
decoder and the port agree. -/
def Inv (s : State) : Prop :=
  Memory.wf s.buf ∧ (∀ c ∈ s.buf, c.1 < s.cap.val) ∧ (s.resetDone = true → DecoderInv s ∧ WriteInv s)

end Sys2Proof.Machine
end

