-- ==== Sys2Proof/Certificates/Slice0/Obligations.lean ====
section
/-! DEFINITION. The statements for the provers, from the numbered rules of spec/. -/

open Sys2Proof Sys2Proof.Machine

/-! ### Byte port -/

/-- R80: BUF_RD answers the byte at an offset below CAP and OUT_OF_BOUNDS elsewhere; it changes nothing. -/
def Obligations.BufRdAnswersByteWithinBounds : Prop :=
  ∀ (s : State) (off : Half), Ready s →
    decode (.transaction ⟨0x01#8, [.off off]⟩) = .instr (.bufRd off) ∧
    (off.toNat + 1 ≤ s.cap.val → ∃ t, exec (.bufRd off) s = .next t ∧
      AnswersInOneStep ⟨.ok, .byte (byteAt s off.toNat)⟩ s t ∧ SameBytes s t) ∧
    (s.cap.val < off.toNat + 1 → ∃ t, exec (.bufRd off) s = .next t ∧
      AnswersInOneStep ⟨.outOfBounds, .bounds off.toNat 1⟩ s t ∧ SameBytes s t)

/-- R81: BUF_WR writes any value at an offset below CAP, that byte alone, and OUT_OF_BOUNDS elsewhere writes nothing. -/
def Obligations.BufWrWritesOneByteWithinBounds : Prop :=
  ∀ (s : State) (off : Half) (v : Byte), Ready s →
    decode (.transaction ⟨0x02#8, [.off off, .v v]⟩) = .instr (.bufWr off v) ∧
    (off.toNat + 1 ≤ s.cap.val → ∃ t, exec (.bufWr off v) s = .next t ∧
      AnswersInOneStep ⟨.ok, .none⟩ s t ∧ byteAt t off.toNat = v ∧ SameBytesOutside off.toNat 1 s t) ∧
    (s.cap.val < off.toNat + 1 → ∃ t, exec (.bufWr off v) s = .next t ∧
      AnswersInOneStep ⟨.outOfBounds, .bounds off.toNat 1⟩ s t ∧ SameBytes s t)

/-- R82: BUF_RD_RANGE answers exactly the bytes of the range in rising order, or OUT_OF_BOUNDS; off + len is exact. -/
def Obligations.BufRdRangeAnswersWholeRange : Prop :=
  ∀ (s : State) (off len : Half), Ready s →
    decode (.transaction ⟨0x03#8, [.off off, .len len]⟩) = .instr (.bufRdRange off len) ∧
    (off.toNat + len.toNat ≤ s.cap.val → ∃ l t, exec (.bufRdRange off len) s = .next t ∧
      AnswersInOneStep ⟨.ok, .bytes l⟩ s t ∧ SameBytes s t ∧ l.length = len.toNat ∧
      ∀ k, k < len.toNat → l[k]? = some (byteAt s (off.toNat + k))) ∧
    (s.cap.val < off.toNat + len.toNat → ∃ t, exec (.bufRdRange off len) s = .next t ∧
      AnswersInOneStep ⟨.outOfBounds, .bounds off.toNat len.toNat⟩ s t ∧ SameBytes s t)

/-- R83: BUF_WR_RANGE writes every byte of its list at its place and nothing else, or, out of bounds, nothing at all; the
pseudo-command LOAD is this command at offset 0. -/
def Obligations.BufWrRangeIsAllOrNothing : Prop :=
  ∀ (s : State) (off : Half) (data : List Byte), Ready s →
    (data.length ≤ 65535 →
      decode (.transaction ⟨0x04#8, [.off off, .data data]⟩) = .instr (.bufWrRange off data)) ∧
    (off.toNat + data.length ≤ s.cap.val → ∃ t, exec (.bufWrRange off data) s = .next t ∧
      AnswersInOneStep ⟨.ok, .none⟩ s t ∧ (∀ k b, data[k]? = some b → byteAt t (off.toNat + k) = b) ∧
      SameBytesOutside off.toNat data.length s t) ∧
    (s.cap.val < off.toNat + data.length → ∃ t, exec (.bufWrRange off data) s = .next t ∧
      AnswersInOneStep ⟨.outOfBounds, .bounds off.toNat data.length⟩ s t ∧ SameBytes s t) ∧
    pseudoMoves s.cap (.load data) = [.command ⟨0x04#8, [.off 0#16, .data data]⟩]

/-- R84: in range, a range write leaves the bytes that a single write and then the write of the rest leave, and a range
read answers what the single reads answer. -/
def Obligations.RangeCommandsAgreeWithSingleByteCommands : Prop :=
  (∀ (s : State) (off : Half) (b : Byte) (bs : List Byte), Ready s → off.toNat + (bs.length + 1) ≤ s.cap.val →
    ∃ t u v, exec (.bufWrRange off (b :: bs)) s = .next t ∧ exec (.bufWr off b) s = .next u ∧
      exec (.bufWrRange (off + 1#16) bs) u = .next v ∧ SameBytes v t) ∧
  (∀ (s : State) (off len k : Half), Ready s → off.toNat + len.toNat ≤ s.cap.val → k.toNat < len.toNat →
    ∃ t u l b, exec (.bufRdRange off len) s = .next t ∧ exec (.bufRd (off + k)) s = .next u ∧
      t.responses = s.responses ++ [⟨.ok, .bytes l⟩] ∧ u.responses = s.responses ++ [⟨.ok, .byte b⟩] ∧
      l[k.toNat]? = some b)

/-! ### Packet fields -/

/-- R93: SIZE_RD answers the byte at offset 2, legal or not. -/
def Obligations.SizeRdAnswersSizeField : Prop :=
  ∀ s : State, Ready s →
    decode (.transaction ⟨0x10#8, []⟩) = .instr .sizeRd ∧
    ∃ t, exec .sizeRd s = .next t ∧ AnswersInOneStep ⟨.ok, .byte (byteAt s 2)⟩ s t ∧ SameBytes s t

/-- R94: SIZE_WR writes any value at offset 2 and nothing else. -/
def Obligations.SizeWrWritesSizeField : Prop :=
  ∀ (s : State) (n : Byte), Ready s →
    decode (.transaction ⟨0x11#8, [.n n]⟩) = .instr (.sizeWr n) ∧
    ∃ t, exec (.sizeWr n) s = .next t ∧ AnswersInOneStep ⟨.ok, .none⟩ s t ∧ byteAt t 2 = n ∧ SameBytesOutside 2 1 s t

/-- R95: PAYLOAD_RD answers the s - 1 bytes from offset 3 on for a legal size s, and SIZE_ERROR(s) else. -/
def Obligations.PayloadRdAnswersPayload : Prop :=
  ∀ s : State, Ready s →
    decode (.transaction ⟨0x12#8, []⟩) = .instr .payloadRd ∧
    (sizeOK s (byteAt s 2) → ∃ l t, exec .payloadRd s = .next t ∧
      AnswersInOneStep ⟨.ok, .bytes l⟩ s t ∧ SameBytes s t ∧ l.length = (byteAt s 2).toNat - 1 ∧
      ∀ k, k < (byteAt s 2).toNat - 1 → l[k]? = some (byteAt s (3 + k))) ∧
    (¬ sizeOK s (byteAt s 2) → ∃ t, exec .payloadRd s = .next t ∧
      AnswersInOneStep ⟨.sizeError, .byte (byteAt s 2)⟩ s t ∧ SameBytes s t)

/-- R96, R97: PAYLOAD_WR writes the payload from offset 3 on and its length plus 1 as the size, and no other byte (no
checksum); a payload above MAX_PAYLOAD writes nothing. -/
def Obligations.PayloadWrWritesPayloadAndSize : Prop :=
  ∀ (s : State) (data : List Byte), Ready s →
    (data.length ≤ 65535 → decode (.transaction ⟨0x13#8, [.data data]⟩) = .instr (.payloadWr data)) ∧
    (data.length ≤ min 255 (s.cap.val - 3) - 1 → ∃ t, exec (.payloadWr data) s = .next t ∧
      AnswersInOneStep ⟨.ok, .none⟩ s t ∧ (∀ k b, data[k]? = some b → byteAt t (3 + k) = b) ∧
      (byteAt t 2).toNat = data.length + 1 ∧ SameBytesOutside 2 (data.length + 1) s t) ∧
    (min 255 (s.cap.val - 3) - 1 < data.length → ∃ t, exec (.payloadWr data) s = .next t ∧
      AnswersInOneStep ⟨.payloadTooLarge, .length data.length⟩ s t ∧ SameBytes s t)

/-- R98: SIZE_RD after a PAYLOAD_WR that fits answers the payload's length plus 1. -/
def Obligations.SizeRdAfterPayloadWrIsLengthPlusOne : Prop :=
  ∀ (s : State) (data : List Byte), Ready s → data.length ≤ maxPayload s →
    ∃ t u b, exec (.payloadWr data) s = .next t ∧ exec .sizeRd t = .next u ∧
      u.responses = s.responses ++ [⟨.ok, .none⟩, ⟨.ok, .byte b⟩] ∧ b.toNat = data.length + 1

/-- R92: each of the six layout commands answers SIZE_ERROR(s) to an illegal size s before any other effect. -/
def Obligations.LayoutCommandsRaiseSizeError : Prop :=
  ∀ (s : State) (i : Instr), Ready s → ¬ sizeOK s (byteAt s 2) →
    (i = .payloadRd ∨ i = .csumRd ∨ i = .csumCalc ∨ i = .csumStamp ∨ i = .encode ∨ i = .writeFrame) →
    ∃ t, exec i s = .next t ∧ AnswersInOneStep ⟨.sizeError, .byte (byteAt s 2)⟩ s t ∧ SameBytes s t

/-- R99: VALIDATE answers 0x01 exactly when the size is legal and the stored checksum equals the sum, else 0x00; it
changes nothing. -/
def Obligations.ValidateAnswersSizeAndChecksumTest : Prop :=
  ∀ s : State, Ready s →
    decode (.transaction ⟨0x30#8, []⟩) = .instr .validate ∧
    ∃ b t, exec .validate s = .next t ∧ AnswersInOneStep ⟨.ok, .byte b⟩ s t ∧ SameBytes s t ∧
      (sizeOK s (byteAt s 2) ∧
        byteAt s (2 + (byteAt s 2).toNat) = frameSum s (byteAt s 2).toNat → b = 0x01#8) ∧
      (¬ (sizeOK s (byteAt s 2) ∧
        byteAt s (2 + (byteAt s 2).toNat) = frameSum s (byteAt s 2).toNat) → b = 0x00#8)

/-! ### Checksum -/

/-- R105, R106: Sum(n) is the sum of the bytes at offsets 1 .. 1 + n modulo 256. -/
def Obligations.FrameSumIsSumModulo256 : Prop :=
  ∀ (s : State) (n : Nat),
    (frameSum s n).toNat = (((List.range (n + 1)).map (fun k => (byteAt s (1 + k)).toNat)).sum) % 256

/-- R107: CSUM_RD answers the byte at offset 2 + s for a legal size s, stale or not. -/
def Obligations.CsumRdAnswersStoredChecksum : Prop :=
  ∀ s : State, Ready s →
    decode (.transaction ⟨0x20#8, []⟩) = .instr .csumRd ∧
    (sizeOK s (byteAt s 2) → ∃ t, exec .csumRd s = .next t ∧
      AnswersInOneStep ⟨.ok, .byte (byteAt s (2 + (byteAt s 2).toNat))⟩ s t ∧ SameBytes s t) ∧
    (¬ sizeOK s (byteAt s 2) → ∃ t, exec .csumRd s = .next t ∧
      AnswersInOneStep ⟨.sizeError, .byte (byteAt s 2)⟩ s t ∧ SameBytes s t)

/-- R108: CSUM_CALC answers Sum(s) for a legal size s and stores nothing. -/
def Obligations.CsumCalcAnswersSum : Prop :=
  ∀ s : State, Ready s →
    decode (.transaction ⟨0x21#8, []⟩) = .instr .csumCalc ∧
    (sizeOK s (byteAt s 2) → ∃ b t, exec .csumCalc s = .next t ∧ AnswersInOneStep ⟨.ok, .byte b⟩ s t ∧
      SameBytes s t ∧
      b.toNat = (((List.range ((byteAt s 2).toNat + 1)).map (fun k => (byteAt s (1 + k)).toNat)).sum) % 256) ∧
    (¬ sizeOK s (byteAt s 2) → ∃ t, exec .csumCalc s = .next t ∧
      AnswersInOneStep ⟨.sizeError, .byte (byteAt s 2)⟩ s t ∧ SameBytes s t)

/-- R109: CSUM_STAMP stores Sum(s) at offset 2 + s and nothing else; the size and the sum stay as they were. -/
def Obligations.CsumStampStoresSum : Prop :=
  ∀ s : State, Ready s →
    decode (.transaction ⟨0x22#8, []⟩) = .instr .csumStamp ∧
    (sizeOK s (byteAt s 2) → ∃ t, exec .csumStamp s = .next t ∧ AnswersInOneStep ⟨.ok, .none⟩ s t ∧
      byteAt t (2 + (byteAt s 2).toNat) = frameSum s (byteAt s 2).toNat ∧
      SameBytesOutside (2 + (byteAt s 2).toNat) 1 s t ∧
      byteAt t 2 = byteAt s 2 ∧ frameSum t (byteAt s 2).toNat = frameSum s (byteAt s 2).toNat) ∧
    (¬ sizeOK s (byteAt s 2) → ∃ t, exec .csumStamp s = .next t ∧
      AnswersInOneStep ⟨.sizeError, .byte (byteAt s 2)⟩ s t ∧ SameBytes s t)

/-- R110: after a CSUM_STAMP that returns OK, and as long as offsets 1 .. 2 + s hold what they hold then, VALIDATE answers
0x01, CSUM_RD and CSUM_CALC answer the same byte, and a second CSUM_STAMP changes no byte. -/
def Obligations.StampedFrameIsValid : Prop :=
  ∀ s : State, Ready s → sizeOK s (byteAt s 2) →
    ∃ t, exec .csumStamp s = .next t ∧ t.responses = s.responses ++ [⟨.ok, .none⟩] ∧ Ready t ∧
      ∀ u, Ready u → u.cap = t.cap → (∀ i, 1 ≤ i → i ≤ 2 + (byteAt s 2).toNat → byteAt u i = byteAt t i) →
        ∃ a b c d e, exec .validate u = .next a ∧ a.responses = u.responses ++ [⟨.ok, .byte 0x01#8⟩] ∧
          exec .csumRd u = .next b ∧ b.responses = u.responses ++ [⟨.ok, .byte e⟩] ∧
          exec .csumCalc u = .next c ∧ c.responses = u.responses ++ [⟨.ok, .byte e⟩] ∧
          exec .csumStamp u = .next d ∧ SameBytes u d

/-- R111: changing one covered byte by d changes Sum by d, so a single changed byte is always detected. -/
def Obligations.OneChangedByteChangesSum : Prop :=
  ∀ (s : State) (n i : Nat) (v : Byte), 1 ≤ i → i ≤ 1 + n →
    frameSum (setByte i v s) n = frameSum s n + (v - byteAt s i) ∧
      (v ≠ byteAt s i → frameSum (setByte i v s) n ≠ frameSum s n)

/-- R111: any permutation of the covered bytes leaves Sum unchanged. -/
def Obligations.PermutedBytesKeepSum : Prop :=
  ∀ (s t : State) (n : Nat),
    ((List.range (n + 1)).map (fun k => byteAt t (1 + k))).Perm ((List.range (n + 1)).map (fun k => byteAt s (1 + k))) →
      frameSum t n = frameSum s n

/-! ### Transcoder -/

/-- R115, R117: the escape and unescape functions, and that the second undoes the first. -/
def Obligations.UnescapeUndoesEscape : Prop :=
  ∀ b : Byte,
    ((b = 0xE0#8 ∨ b = 0xD0#8) → esc b = [0xD0#8, b - 1#8] ∧ unesc (b - 1#8) = b) ∧
      (b ≠ 0xE0#8 → b ≠ 0xD0#8 → esc b = [b]) ∧ (unesc b).toNat = (b.toNat + 1) % 256

/-- R121: ENCODE answers the sync and the escaped bytes of offsets 1 .. 2 + s for a legal size s, and changes nothing. -/
def Obligations.EncodeAnswersWireImage : Prop :=
  ∀ s : State, Ready s →
    decode (.transaction ⟨0x40#8, []⟩) = .instr .encode ∧
    (sizeOK s (byteAt s 2) → ∃ t, exec .encode s = .next t ∧
      AnswersInOneStep ⟨.ok, .bytes (0xE0#8 ::
        ((List.range ((byteAt s 2).toNat + 2)).map (fun k => esc (byteAt s (1 + k)))).flatten)⟩ s t ∧
      SameBytes s t) ∧
    (¬ sizeOK s (byteAt s 2) → ∃ t, exec .encode s = .next t ∧
      AnswersInOneStep ⟨.sizeError, .byte (byteAt s 2)⟩ s t ∧ SameBytes s t)

/-- R64: the canonical forms; so after the sync, a wire image holds no 0xE0, and every 0xD0 is an escape prefix followed by
0xDF or 0xCF. -/
def Obligations.WireImageIsCanonical : Prop :=
  (esc 0xE0#8 = [0xD0#8, 0xDF#8] ∧ esc 0xD0#8 = [0xD0#8, 0xCF#8] ∧ ∀ b, b ≠ 0xE0#8 → b ≠ 0xD0#8 → esc b = [b]) ∧
  ∀ (s : State) (n : Nat), ∃ l, wireImage s n = 0xE0#8 :: l ∧ 0xE0#8 ∉ l ∧
    ∀ k, l[k]? = some 0xD0#8 → l[k + 1]? = some 0xDF#8 ∨ l[k + 1]? = some 0xCF#8

/-- R120: the length of a wire image is 3 + s + k, k the number of escaped bytes; and R66: it is never above
1 + 2(2 + s). -/
def Obligations.WireImageLengthCountsEscapes : Prop :=
  ∀ (s : State) (n : Nat),
    (wireImage s n).length =
      3 + n + ((List.range (n + 2)).filter
        (fun k => byteAt s (1 + k) == 0xE0#8 || byteAt s (1 + k) == 0xD0#8)).length ∧
    (wireImage s n).length ≤ 1 + 2 * (2 + n)

/-- R118: what ENCODE answers does not depend on offset 0 nor on the bytes above the frame. -/
def Obligations.EncodeReadsTheFrameAlone : Prop :=
  ∀ s u : State, Ready s → Ready u → s.cap = u.cap → s.responses = u.responses → byteAt s 2 = byteAt u 2 →
    (∀ i, 1 ≤ i → i ≤ 2 + (byteAt s 2).toNat → byteAt s i = byteAt u i) →
    ∃ t v, exec .encode s = .next t ∧ exec .encode u = .next v ∧ t.responses = v.responses

/-- R125, R140: the acceptance step of DECODE and READ_FRAME: PORT is BUSY with the command, DPHASE is SYNC, DIDX is 0;
nothing else changes and no response is given yet. -/
def Obligations.DecodeCommandsStartTheDecoder : Prop :=
  ∀ s : State, Ready s →
    decode (.transaction ⟨0x41#8, []⟩) = .instr .decode ∧ decode (.transaction ⟨0x50#8, []⟩) = .instr .readFrame ∧
    (∃ t, exec .decode s = .next t ∧ t.port = .busy .decode ∧ t.dphase = .sync ∧ t.didx = 0 ∧
      SameBytes s t ∧ SameOutside s t ∧ SameBlock s t ∧ t.responses = s.responses) ∧
    (∃ t, exec .readFrame s = .next t ∧ t.port = .busy .readFrame ∧ t.dphase = .sync ∧ t.didx = 0 ∧
      SameBytes s t ∧ SameOutside s t ∧ SameBlock s t ∧ t.responses = s.responses)

/-- R126, R123: the sync step: on 0xE0 the block writes BUF[0], sets DIDX to 1 and enters NORMAL. On a first byte w that is
not 0xE0, the step of the machine consumes w (R134), ends the decode with FRAME_SYNC_ERROR(w) and writes no byte; it runs no
instruction there, since the byte completes no symbol. That exec of WIRE_LITERAL w in SYNC, where R62 gives a literal no
place and which no step calls, does the same to the block is the model's reading (notes/assumptions/11.md). -/
def Obligations.SyncStepAcceptsOnlyTheSyncMarker : Prop :=
  ∀ s : State, awaitsSource s = true → s.dphase = .sync →
    (∃ t, exec .wireSync s = .next t ∧ byteAt t 0 = 0xE0#8 ∧ SameBytesOutside 0 1 s t ∧ t.didx = 1 ∧
      t.dphase = .normal ∧ t.port = s.port ∧ t.responses = s.responses ∧ SameOutside s t ∧ SameBlock s t) ∧
    (∀ w, w ≠ 0xE0#8 → ∃ t, exec (.wireLiteral w) s = .next t ∧ DecodeEnds ⟨.frameSyncError, .byte w⟩ s t ∧
      SameBytes s t ∧ SameOutside s t ∧ SameBlock s t) ∧
    (∀ w rest, HostWaits s → s.source = .byte w :: rest → w ≠ 0xE0#8 →
      ∃ t, step s = .next t ∧ DecodeEnds ⟨.frameSyncError, .byte w⟩ s t ∧ SameBytes s t ∧
        SameOutside { s with source := rest } t ∧ SameBlock s t)

/-- R127, R129: in NORMAL a literal w, not 0xD0, is stored as the logical byte w; that includes 0xE0. -/
def Obligations.LiteralStoresItsByte : Prop :=
  ∀ (s : State) (w : Byte), awaitsSource s = true → s.dphase = .normal → s.didx < s.cap.val → w ≠ 0xD0#8 →
    ∃ t, exec (.wireLiteral w) s = .next t ∧ StoresLogicalByte w s t

/-- R117, R128: in ESCSEEN the operand e of any value stores the logical byte e + 1 modulo 256; R62: so does the whole
symbol 0xD0, e taken in NORMAL. -/
def Obligations.EscapedStoresOperandPlusOne : Prop :=
  ∀ (s : State) (e : Byte), awaitsSource s = true → s.dphase = .escSeen ∨ s.dphase = .normal → s.didx < s.cap.val →
    ∃ t v, exec (.wireEscaped e) s = .next t ∧ v.toNat = (e.toNat + 1) % 256 ∧ StoresLogicalByte v s t

/-- R127: in NORMAL the wire byte 0xD0 enters ESCSEEN and stores nothing; R63, R125: this step and the step of the operand
together run the ESCAPED symbol. -/
def Obligations.EscapeByteThenOperandRunTheSymbol : Prop :=
  ∀ (s : State) (e : Byte) (rest : List SourceAnswer), awaitsSource s = true → s.dphase = .normal → HostWaits s →
    s.source = .byte 0xD0#8 :: .byte e :: rest →
    ∃ t, step s = .next t ∧ t.dphase = .escSeen ∧ t.didx = s.didx ∧ t.port = s.port ∧ t.responses = s.responses ∧
      SameBytes s t ∧ t.source = .byte e :: rest ∧
      step t = exec (.wireEscaped e) { s with source := rest }

/-- R123, R133: EOF and IOERR end the decode with UNEXPECTED_END_OF_STREAM(DIDX) and IO_ERROR(SOURCE, DIDX) in every phase;
the bytes stored stay stored and the answer is taken. -/
def Obligations.EndOfStreamAndSourceErrorEndTheDecode : Prop :=
  ∀ (s : State) (rest : List SourceAnswer), awaitsSource s = true → HostWaits s →
    (s.source = .eof :: rest → ∃ t, step s = .next t ∧
      DecodeEnds ⟨.unexpectedEndOfStream, .position s.didx⟩ s t ∧ SameBytes s t ∧
      SameOutside { s with source := rest } t ∧ SameBlock s t) ∧
    (s.source = .ioerr :: rest → ∃ t, step s = .next t ∧
      DecodeEnds ⟨.ioError, .atSource s.didx⟩ s t ∧ SameBytes s t ∧ SameOutside { s with source := rest } t ∧
      SameBlock s t)

/-- R46: a step of a decode stores at most one logical byte: no offset but the decoder's own changes. -/
def Obligations.DecodeStepStoresAtMostOneByte : Prop :=
  ∀ s t : State, awaitsSource s = true → HostWaits s → step s = .next t →
    ∀ i, i ≠ (if s.dphase = .sync then 0 else s.didx) → byteAt t i = byteAt s i

/-- R119, R134: a DECODE whose source gives the wire image of a frame of legal size reads that frame back, offset 0 becomes
0xE0, no other byte changes, and no wire byte after the frame is taken. -/
def Obligations.DecodeReadsBackAWireImage : Prop :=
  ∀ (w s : State) (n : Nat) (rest : List SourceAnswer), Ready s → (byteAt w 2).toNat = n → 1 ≤ n → n ≤ maxSize s →
    s.host = [.command ⟨0x41#8, []⟩] → s.source = (wireImage w n).map .byte ++ rest →
    ∃ k t, Host.Core.run Sys2Proof.core k s = .next t ∧ DecodeEnds ⟨.ok, .none⟩ s t ∧ t.source = rest ∧
      byteAt t 0 = 0xE0#8 ∧ (∀ i, 1 ≤ i → i ≤ 2 + n → byteAt t i = byteAt w i) ∧
      (∀ i, 2 + n < i → byteAt t i = byteAt s i)

/-! ### Stream commands -/

/-- R144: WRITE_FRAME with a legal size stamps the checksum, hands the whole wire image to the sink in one write and waits;
no other byte changes. -/
def Obligations.WriteFrameStampsAndHandsOver : Prop :=
  ∀ s : State, Ready s →
    decode (.transaction ⟨0x51#8, []⟩) = .instr .writeFrame ∧
    (sizeOK s (byteAt s 2) → ∃ t, exec .writeFrame s = .next t ∧ t.port = .busy .writeFrame ∧
      byteAt t (2 + (byteAt s 2).toNat) = frameSum s (byteAt s 2).toNat ∧
      SameBytesOutside (2 + (byteAt s 2).toNat) 1 s t ∧
      t.sinkGot = s.sinkGot ++ [wireImage t (byteAt s 2).toNat] ∧ SameDecoder s t ∧ SameBlock s t ∧
      t.responses = s.responses ∧ t.source = s.source ∧ t.sink = s.sink ∧ t.host = s.host ∧ t.draws = s.draws)

/-- R144: the sink's answer ends WRITE_FRAME with OK or IO_ERROR(SINK); the stamp stays in the buffer. -/
def Obligations.SinkAnswerEndsWriteFrame : Prop :=
  ∀ (s : State) (rest : List SinkAnswer), awaitsSink s = true → HostWaits s →
    (s.sink = .ok :: rest → ∃ t, step s = .next t ∧
      AnswersInOneStep ⟨.ok, .none⟩ { s with sink := rest } t ∧ SameBytes s t) ∧
    (s.sink = .ioerr :: rest → ∃ t, step s = .next t ∧
      AnswersInOneStep ⟨.ioError, .atSink⟩ { s with sink := rest } t ∧ SameBytes s t)

/-- R145: when the stored checksum is fresh, WRITE_FRAME leaves every byte as it is and hands over the same bytes. -/
def Obligations.FreshChecksumIsRewrittenUnchanged : Prop :=
  ∀ s : State, Ready s → sizeOK s (byteAt s 2) →
    byteAt s (2 + (byteAt s 2).toNat) = frameSum s (byteAt s 2).toNat →
    ∃ t, exec .writeFrame s = .next t ∧ SameBytes s t ∧ t.sinkGot = s.sinkGot ++ [wireImage s (byteAt s 2).toNat]

/-- R100, R141: a step that completes a READ_FRAME with OK leaves a buffer that VALIDATE finds valid, and one that ends it
with CHECKSUM_MISMATCH leaves one that VALIDATE finds invalid. -/
def Obligations.ReadFrameVerdictIsValidateVerdict : Prop :=
  ∀ s t : State, Inv s → HostWaits s → s.resetDone = true → s.port = .busy .readFrame → step s = .next t →
    (t.responses = s.responses ++ [⟨.ok, .none⟩] →
      ∃ u, exec .validate t = .next u ∧ u.responses = t.responses ++ [⟨.ok, .byte 0x01#8⟩]) ∧
    (∀ a b, t.responses = s.responses ++ [⟨.checksumMismatch, .checksums a b⟩] →
      ∃ u, exec .validate t = .next u ∧ u.responses = t.responses ++ [⟨.ok, .byte 0x00#8⟩])

/-- R146: a frame written by WRITE_FRAME and read by READ_FRAME from a source that carries exactly the bytes handed to the
sink answers OK, with offsets 1 .. 2 + s as the writer's and offset 0 equal to 0xE0. -/
def Obligations.ReadFrameReadsWhatWriteFrameWrote : Prop :=
  ∀ (w t s : State) (wire : List Byte) (rest : List SourceAnswer), Ready w → sizeOK w (byteAt w 2) →
    exec .writeFrame w = .next t → t.sinkGot = w.sinkGot ++ [wire] →
    Ready s → (byteAt w 2).toNat ≤ maxSize s → s.host = [.command ⟨0x50#8, []⟩] →
    s.source = wire.map .byte ++ rest →
    ∃ k u, Host.Core.run Sys2Proof.core k s = .next u ∧ DecodeEnds ⟨.ok, .none⟩ s u ∧ u.source = rest ∧
      byteAt u 0 = 0xE0#8 ∧ ∀ i, 1 ≤ i → i ≤ 2 + (byteAt w 2).toNat → byteAt u i = byteAt t i

/-! ### Command port, reset and errors -/

/-- R60, R153: an unassigned code, whatever operands come with it, is answered (ILLEGAL_COMMAND, code) in one step with no
other effect. -/
def Obligations.UnassignedCodeIsIllegalCommand : Prop :=
  ∀ (s : State) (t : Transaction) (rest : List HostMove), Ready s → s.host = .command t :: rest →
    t.code ∉ [0x01#8, 0x02#8, 0x03#8, 0x04#8, 0x10#8, 0x11#8, 0x12#8, 0x13#8, 0x20#8, 0x21#8, 0x22#8, 0x30#8, 0x40#8,
      0x41#8, 0x50#8, 0x51#8] →
    ∃ u, step s = .next u ∧ AnswersInOneStep ⟨.illegalCommand, .byte t.code⟩ { s with host := rest } u ∧ SameBytes s u

/-- R150: the numbers of the nine statuses, and that no two are alike. -/
def Obligations.StatusCodesAreAsTabled : Prop :=
  Status.ok.code = 0x00#8 ∧ Status.outOfBounds.code = 0x01#8 ∧ Status.payloadTooLarge.code = 0x02#8 ∧
    Status.frameSyncError.code = 0x03#8 ∧ Status.unexpectedEndOfStream.code = 0x04#8 ∧
    Status.checksumMismatch.code = 0x05#8 ∧ Status.sizeError.code = 0x06#8 ∧ Status.ioError.code = 0x07#8 ∧
    Status.illegalCommand.code = 0x08#8 ∧ ∀ a b : Status, a.code = b.code → a = b

/-- R13, R157: raising an error sets PORT to IDLE and responds with the error's status and information; R133: aborting a
decode also sets DPHASE to IDLE and DIDX to 0; the buffer keeps what was written. That raise by itself leaves DPHASE and DIDX
as they are, also in a state where a decode is in progress, is the model's reading (notes/assumptions/21.md): a decode ends
through abort. -/
def Obligations.RaisingAnErrorRespondsAndFreesThePort : Prop :=
  ∀ (e : Error) (s : State),
    (∃ t, raise e s = .next t ∧ Responds ⟨e.status, e.rdata⟩ s t ∧ e.status ≠ .ok ∧ SameBytes s t ∧ SameDecoder s t ∧
      SameOutside s t ∧ SameBlock s t) ∧
    (∃ t, abort e s = .next t ∧ DecodeEnds ⟨e.status, e.rdata⟩ s t ∧ SameBytes s t ∧ SameOutside s t ∧ SameBlock s t)

/-- R175: before the first RESET, whatever the state, no command has a meaning. -/
def Obligations.NoCommandBeforeTheFirstReset : Prop :=
  ∀ (s : State) (i : Instr) (t : Transaction), s.resetDone = false → encode i = .transaction t →
    exec i s = .refused .beforeFirstReset

/-- R33, R171: RESET, whatever the host does next, zeroes the buffer, makes the decoder and the port idle and leaves CAP and,
where no read is pending, the source; a second RESET right after it changes nothing; and State.reset is such a state. That the
sink's answers and the record of what was handed over stay as they are also where a sink write is pending is the model's
choice (notes/assumptions/15.md). -/
def Obligations.ResetRestoresEveryItem : Prop :=
  (∀ (s : State) (rest : List HostMove), s.host = .reset :: rest → ∃ t, step s = .next t ∧
    (∀ i, byteAt t i = 0x00#8) ∧ t.buf = [] ∧ t.dphase = .idle ∧ t.didx = 0 ∧ t.port = .idle ∧ t.cap = s.cap ∧
    t.resetDone = true ∧ t.host = rest ∧ t.sink = s.sink ∧ t.sinkGot = s.sinkGot ∧
    (awaitsSource s = false → t.source = s.source) ∧
    ∀ rest', rest = .reset :: rest' → step t = .next { t with host := rest' }) ∧
  (∀ i, byteAt State.reset i = 0x00#8) ∧ State.reset.dphase = .idle ∧ State.reset.didx = 0 ∧
    State.reset.port = .idle ∧ State.reset.cap = Config.cap

/-- R172: RESET while a command is in progress ends it with no response, and of the source at most the answer of the pending
read is lost; which of the two happens is a free value (notes/assumptions/5.md). R171: the sink is not touched; that a
write pending at the sink stays in the record and its answer is not taken, of which R172 says nothing, is the model's choice
(notes/assumptions/15.md). -/
def Obligations.ResetEndsACommandWithoutResponse : Prop :=
  ∀ (s : State) (rest : List HostMove), s.host = .reset :: rest →
    ∃ t, step s = .next t ∧ t.port = .idle ∧ t.responses = s.responses ∧ t.sink = s.sink ∧ t.sinkGot = s.sinkGot ∧
      t.host = rest ∧ (awaitsSource s = false → t.source = s.source) ∧
      (t.source = s.source ∨ t.source = s.source.tail)

/-- R183: while the source or the sink does not answer and the host makes no move, every number of steps leaves the machine
as it is: the command stays BUSY. That a hang is a step to the same state is the model's choice (notes/assumptions/4.md). -/
def Obligations.SilenceHangsTheCommand : Prop :=
  ∀ (s : State) (k : Nat), HostWaits s →
    (awaitsSource s = true ∧ s.source = [] ∨ awaitsSink s = true ∧ s.sink = []) →
    Host.Core.run Sys2Proof.core k s = .next s ∧ s.port ≠ .idle

/-- R28, R55: while a command is outstanding, a step does not take the command the host wants to issue next. The host's
list of moves is the model's choice (notes/assumptions/2.md, 3.md). -/
def Obligations.CommandWaitsForTheResponse : Prop :=
  ∀ (s t : State) (x : Transaction) (rest : List HostMove), s.resetDone = true → s.port ≠ .idle →
    s.host = .command x :: rest → step s = .next t → t.host = s.host

/-- R28: a command other than DECODE, READ_FRAME and WRITE_FRAME is answered in its own step, and a command that stays BUSY has
given no response. -/
def Obligations.OnlyWaitingCommandsStayBusy : Prop :=
  ∀ (s t : State) (i : Instr) (x : Transaction), encode i = .transaction x → exec i s = .next t →
    (i ≠ .decode ∧ i ≠ .readFrame ∧ i ≠ .writeFrame → t.port = .idle ∧ ∃ r, t.responses = s.responses ++ [r]) ∧
    (t.port = .idle ∨ t.responses = s.responses)

/-- R84, R92, R144: no instruction but WRITE_FRAME hands bytes to the sink, and none takes an answer of the sink or a move of
the host. -/
def Obligations.OnlyWriteFrameUsesTheSink : Prop :=
  ∀ (s t : State) (i : Instr), exec i s = .next t →
    t.sink = s.sink ∧ t.host = s.host ∧ (i ≠ .writeFrame → t.sinkGot = s.sinkGot)

/-- R23: the frame of a legal size lies in the buffer: its checksum offset is below CAP, and its fields do not overlap. -/
def Obligations.LegalFramesFitTheBuffer : Prop :=
  ∀ (s : State) (z : Byte), sizeOK s z → offCk z.toNat < s.cap.val ∧ offSync < offAddr ∧ offAddr < offSize ∧ offSize < offPay ∧
    offPay + (z.toNat - 1) = offCk z.toNat

/-- R71: PACK with a payload that fits leaves a valid frame after two steps; with one that does not fit, it stops at
PAYLOAD_TOO_LARGE and changes no byte. The two moves of the host that PACK stands for are the model's choice
(notes/assumptions/18.md). -/
def Obligations.PackBuildsAValidFrameOrStops : Prop :=
  ∀ (s : State) (data : List Byte), Ready s → s.host = pseudoMoves s.cap (.pack data) → data.length ≤ 65535 →
    (data.length ≤ maxPayload s → ∃ t u, Host.Core.run Sys2Proof.core 2 s = .next t ∧
      t.responses = s.responses ++ [⟨.ok, .none⟩, ⟨.ok, .none⟩] ∧ (byteAt t 2).toNat = data.length + 1 ∧
      (∀ k b, data[k]? = some b → byteAt t (3 + k) = b) ∧
      exec .validate t = .next u ∧ u.responses = t.responses ++ [⟨.ok, .byte 0x01#8⟩]) ∧
    (maxPayload s < data.length → ∃ t, Host.Core.run Sys2Proof.core 2 s = .next t ∧
      t.responses = s.responses ++ [⟨.payloadTooLarge, .length data.length⟩] ∧ SameBytes s t ∧ t.host = [])

/-! ### The whole machine -/

/-- A step runs the decoded command: at a ready port, the step of a state whose host offers a transaction that decodes to i
is exec of i once the host's move is taken. The host's list of moves is the model's choice (notes/assumptions/2.md). -/
def Obligations.StepRunsTheDecodedCommand : Prop :=
  ∀ (s : State) (t : Transaction) (rest : List HostMove) (i : Instr), Ready s → s.host = .command t :: rest →
    decode (.transaction t) = .instr i → step s = exec i { s with host := rest }

/-- A step runs the wire symbol: while a decode waits, the step of a state whose source gives the byte that completes the
symbol i at the decoder's place is exec of i once the answer is taken. That a symbol runs when its last byte is taken is the
model's choice (notes/assumptions/11.md). -/
def Obligations.StepRunsTheCompletedWireSymbol : Prop :=
  ∀ (s : State) (w : Byte) (rest : List SourceAnswer) (i : Instr), awaitsSource s = true → HostWaits s →
    s.source = .byte w :: rest → readWireByte (wirePlace s.dphase) w = .symbol i →
    step s = exec i { s with source := rest }

/-- Words written out from the tables of R59 and R62 decode to the instructions they stand for. -/
def Obligations.KnownEncodingsDecode : Prop :=
  decode (.transaction ⟨0b00000010#8, [.off 0x0001#16, .v 0xFF#8]⟩) = .instr (.bufWr 1#16 255#8) ∧
    decode (.transaction ⟨0b00010011#8, [.data [0x01#8, 0x02#8]]⟩) = .instr (.payloadWr [1#8, 2#8]) ∧
    decode (.transaction ⟨0b00100010#8, []⟩) = .instr .csumStamp ∧
    decode (.transaction ⟨0b00110000#8, []⟩) = .instr .validate ∧
    decode (.transaction ⟨0b01000001#8, []⟩) = .instr .decode ∧
    decode (.transaction ⟨0b01010001#8, []⟩) = .instr .writeFrame ∧
    decode (.firstSymbol [0b11100000#8]) = .instr .wireSync ∧
    decode (.symbol [0b11010000#8, 0b11011111#8]) = .instr (.wireEscaped 0xDF#8) ∧
    decode (.symbol [0b11100000#8]) = .instr (.wireLiteral 0xE0#8)

/-- Decode and encode agree, in both directions: every well-formed instruction is what its encoding decodes to, and what
decodes to an instruction is the encoding of that instruction, which is well-formed. -/
def Obligations.DecodeAndEncodeAgree : Prop :=
  (∀ i : Instr, WellFormed i = true → decode (encode i) = .instr i) ∧
    (∀ (x : Encoded) (i : Instr), decode x = .instr i → WellFormed i = true ∧ encode i = x)

/-- Every step keeps the model's invariant: the buffer's canonical form and bounds, the agreement of decoder and port, and what
WRITE_FRAME handed to the sink. -/
def Obligations.StepKeepsTheInvariant : Prop :=
  ∀ s t : State, Inv s → step s = .next t → Inv t

/-- The state after reset meets the invariant, at every capacity. -/
def Obligations.ResetMeetsTheInvariant : Prop :=
  Inv State.reset ∧ ∀ cap : Capacity, Inv (State.resetOf cap)

/-- R10, R129: in a state that meets the invariant no step faults: Store never writes out of range. -/
def Obligations.NoStepFaultsUnderTheInvariant : Prop :=
  ∀ (s : State) (f : Fault), Inv s → step s ≠ .fault f

/-- R29: no step changes CAP. -/
def Obligations.NoStepChangesTheCapacity : Prop :=
  ∀ s t : State, step s = .next t → t.cap = s.cap

/-- R11, R124: a step takes at most one answer of the source, and none unless a decode waits. -/
def Obligations.StepTakesAtMostOneSourceAnswer : Prop :=
  ∀ s t : State, step s = .next t →
    t.source = s.source ∨ awaitsSource s = true ∧ ∃ a, s.source = a :: t.source

/-- R13, R55: a step gives at most one response, and PORT is IDLE after it; so a command that waits has given none. -/
def Obligations.StepGivesAtMostOneResponse : Prop :=
  ∀ s t : State, step s = .next t →
    t.responses = s.responses ∨ t.port = .idle ∧ ∃ r, t.responses = s.responses ++ [r]
end

