-- ==== Sys2Proof/Laws/Memory.lean ====
section
/-! SUPPORT. The memory laws: a read after a write, and the canonical form that every memory operation keeps. -/

namespace Sys2Proof.Machine

theorem Memory.read_insert (m : Memory) (i : Nat) (v : Byte) (j : Nat) (h : ∀ c ∈ m, c.1 ≠ i) :
    Memory.read (Memory.insert m i v) j = if i = j then v else Memory.read m j := by
  induction m with
  | nil => simp [Memory.insert, Memory.read]
  | cons c m ih =>
    obtain ⟨a, b⟩ := c
    have ha : a ≠ i := h (a, b) (by simp)
    have ih := ih (fun c hc => h c (by simp [hc]))
    unfold Memory.insert
    split
    · simp [Memory.read]
    · simp only [Memory.read, ih]
      split
      · rename_i haj
        rw [if_neg (by omega)]
      · rfl

theorem Memory.read_erase (m : Memory) (i j : Nat) :
    Memory.read (Memory.erase m i) j = if i = j then Memory.unlisted else Memory.read m j := by
  induction m with
  | nil => simp [Memory.erase, Memory.read]
  | cons c m ih =>
    obtain ⟨a, b⟩ := c
    simp only [Memory.erase] at ih ⊢
    by_cases ha : a = i
    · subst ha
      simp only [List.filter_cons, bne_self_eq_false, Bool.false_eq_true, if_false, ih]
      by_cases haj : a = j <;> simp [haj, Memory.read]
    · have hne : (a != i) = true := by simpa using ha
      simp only [List.filter_cons, hne, if_true, Memory.read, ih]
      by_cases haj : a = j
      · rw [if_pos haj, if_neg (by omega), if_pos haj]
      · rw [if_neg haj, if_neg haj]

theorem Memory.ne_of_mem_erase {m : Memory} {i : Nat} {c : Host.Cell} (h : c ∈ Memory.erase m i) : c.1 ≠ i := by
  simpa using (List.mem_filter.mp h).2

/-- A read after a write, at every offset. -/
theorem Memory.read_write (m : Memory) (i : Nat) (v : Byte) (j : Nat) :
    Memory.read (Memory.write m i v) j = if i = j then v else Memory.read m j := by
  unfold Memory.write
  split
  · rename_i hv
    rw [Memory.read_erase, hv]
  · rw [Memory.read_insert _ _ _ _ (fun c hc => Memory.ne_of_mem_erase hc), Memory.read_erase]
    split <;> rfl

/-- A read after a list has been written, at every offset. -/
theorem Memory.read_writeList (m : Memory) (off : Nat) (data : List Byte) (j : Nat) :
    Memory.read (Memory.writeList m off data) j =
      if off ≤ j then (data[j - off]?).getD (Memory.read m j) else Memory.read m j := by
  induction data generalizing m off with
  | nil => simp [Memory.writeList]
  | cons b bs ih =>
    simp only [Memory.writeList, ih, Memory.read_write]
    by_cases h1 : off + 1 ≤ j
    · have h2 : j - off = (j - (off + 1)) + 1 := by omega
      have h3 : off ≠ j := by omega
      have h4 : off ≤ j := by omega
      simp only [if_pos h1, if_neg h3, if_pos h4]
      rw [h2, List.getElem?_cons_succ]
    · simp only [if_neg h1]
      by_cases h3 : off = j
      · subst h3; simp
      · have h4 : ¬ off ≤ j := by omega
        simp only [if_neg h3, if_neg h4]

/-! ### The canonical form -/

theorem Memory.mem_insert {m : Memory} {i : Nat} {v : Byte} {c : Host.Cell} (h : c ∈ Memory.insert m i v) :
    c = (i, v) ∨ c ∈ m := by
  induction m with
  | nil => exact .inl (by simpa [Memory.insert] using h)
  | cons d m ih =>
    obtain ⟨a, b⟩ := d
    unfold Memory.insert at h
    split at h
    · simpa using h
    · rcases List.mem_cons.mp h with h | h
      · exact .inr (by simp [h])
      · rcases ih h with h | h
        · exact .inl h
        · exact .inr (by simp [h])

theorem Memory.insert_sorted {m : Memory} {i : Nat} {v : Byte} (hs : m.Pairwise (fun c d => c.1 < d.1))
    (h : ∀ c ∈ m, c.1 ≠ i) : (Memory.insert m i v).Pairwise (fun c d => c.1 < d.1) := by
  induction m with
  | nil => simp [Memory.insert]
  | cons d m ih =>
    obtain ⟨a, b⟩ := d
    have ha : a ≠ i := h (a, b) (by simp)
    obtain ⟨hd, hm⟩ := List.pairwise_cons.mp hs
    unfold Memory.insert
    split
    · rename_i hlt
      refine List.pairwise_cons.mpr ⟨fun c hc => ?_, hs⟩
      rcases List.mem_cons.mp hc with rfl | hc
      · exact hlt
      · exact lt_trans hlt (hd c hc)
    · refine List.pairwise_cons.mpr ⟨fun c hc => ?_, ih hm (fun c hc => h c (by simp [hc]))⟩
      rcases Memory.mem_insert hc with rfl | hc
      · show a < i
        omega
      · exact hd c hc

theorem Memory.wf_nil : Memory.wf [] := by simp [Memory.wf]

theorem Memory.wf_erase {m : Memory} (h : Memory.wf m) (i : Nat) : Memory.wf (Memory.erase m i) :=
  ⟨h.1.filter _, fun c hc => h.2 c (List.mem_filter.mp hc).1⟩

/-- A write keeps the canonical form. -/
theorem Memory.wf_write {m : Memory} (h : Memory.wf m) (i : Nat) (v : Byte) : Memory.wf (Memory.write m i v) := by
  unfold Memory.write
  split
  · exact Memory.wf_erase h i
  · rename_i hv
    refine ⟨Memory.insert_sorted (Memory.wf_erase h i).1 (fun c hc => Memory.ne_of_mem_erase hc), fun c hc => ?_⟩
    rcases Memory.mem_insert hc with rfl | hc
    · exact hv
    · exact (Memory.wf_erase h i).2 c hc

/-- Writing a list keeps the canonical form. -/
theorem Memory.wf_writeList {m : Memory} (h : Memory.wf m) (off : Nat) (data : List Byte) :
    Memory.wf (Memory.writeList m off data) := by
  induction data generalizing m off with
  | nil => exact h
  | cons b bs ih => exact ih (Memory.wf_write h off b) (off + 1)

theorem Memory.mem_write {m : Memory} {i : Nat} {v : Byte} {c : Host.Cell} (h : c ∈ Memory.write m i v) :
    c.1 = i ∨ c ∈ m := by
  unfold Memory.write at h
  split at h
  · exact .inr (List.mem_filter.mp h).1
  · rcases Memory.mem_insert h with rfl | h
    · exact .inl rfl
    · exact .inr (List.mem_filter.mp h).1

/-- A write below a bound lists no offset at or above it. -/
theorem Memory.below_write {m : Memory} {n i : Nat} (h : ∀ c ∈ m, c.1 < n) (hi : i < n) (v : Byte) :
    ∀ c ∈ Memory.write m i v, c.1 < n := by
  intro c hc
  rcases Memory.mem_write hc with h' | h'
  · omega
  · exact h c h'

/-- A list written below a bound lists no offset at or above it. -/
theorem Memory.below_writeList {m : Memory} {n off : Nat} {data : List Byte} (h : ∀ c ∈ m, c.1 < n)
    (hi : off + data.length ≤ n) : ∀ c ∈ Memory.writeList m off data, c.1 < n := by
  induction data generalizing m off with
  | nil => exact h
  | cons b bs ih =>
    simp only [List.length_cons] at hi
    exact ih (Memory.below_write h (by omega) b) (by omega)

/-- Two memories in canonical form that read alike are the same list. -/
theorem Memory.ext_of_wf {m m' : Memory} (h : Memory.wf m) (h' : Memory.wf m')
    (he : ∀ i, Memory.read m i = Memory.read m' i) : m = m' := by
  have low : ∀ {l : Memory} {i : Nat}, (∀ c ∈ l, i < c.1) → Memory.read l i = Memory.unlisted := by
    intro l i hl
    induction l with
    | nil => rfl
    | cons c l ih =>
      obtain ⟨a, b⟩ := c
      have hlt : i < a := hl (a, b) (by simp)
      have hne : a ≠ i := by omega
      simp only [Memory.read, if_neg hne]
      exact ih (fun c hc => hl c (by simp [hc]))
  induction m generalizing m' with
  | nil =>
    cases m' with
    | nil => rfl
    | cons c l =>
      obtain ⟨a, b⟩ := c
      have := he a
      simp only [Memory.read, if_true] at this
      exact absurd this.symm (h'.2 (a, b) (by simp))
  | cons c l ih =>
    obtain ⟨a, b⟩ := c
    obtain ⟨hd, hs⟩ := List.pairwise_cons.mp h.1
    cases m' with
    | nil =>
      have := he a
      simp only [Memory.read, if_true] at this
      exact absurd this (h.2 (a, b) (by simp))
    | cons c' l' =>
      obtain ⟨a', b'⟩ := c'
      obtain ⟨hd', hs'⟩ := List.pairwise_cons.mp h'.1
      have hwf : Memory.wf l := ⟨hs, fun c hc => h.2 c (by simp [hc])⟩
      have hwf' : Memory.wf l' := ⟨hs', fun c hc => h'.2 c (by simp [hc])⟩
      have haa : a = a' := by
        rcases lt_trichotomy a a' with hlt | heq | hgt
        · have h1 := he a
          have hr : Memory.read ((a', b') :: l') a = Memory.unlisted :=
            low (fun c hc => by
              rcases List.mem_cons.mp hc with rfl | hc
              · exact hlt
              · exact lt_trans hlt (hd' c hc))
          rw [hr] at h1
          simp only [Memory.read, if_true] at h1
          exact absurd h1 (h.2 (a, b) (by simp))
        · exact heq
        · have h1 := he a'
          have hr : Memory.read ((a, b) :: l) a' = Memory.unlisted :=
            low (fun c hc => by
              rcases List.mem_cons.mp hc with rfl | hc
              · exact hgt
              · exact lt_trans hgt (hd c hc))
          rw [hr] at h1
          simp only [Memory.read, if_true] at h1
          exact absurd h1.symm (h'.2 (a', b') (by simp))
      subst haa
      have hbb : b = b' := by simpa [Memory.read] using he a
      subst hbb
      refine congrArg ((a, b) :: ·) (ih hwf hwf' (fun i => ?_))
      by_cases hi : a = i
      · subst hi
        rw [low hd, low hd']
      · simpa [Memory.read, hi] using he i

end Sys2Proof.Machine
end

