-- ==== Sys2Proof/Laws/State.lean ====
section
/-! SUPPORT. What each update of the state does to each field: one lemma per field per update. -/

namespace Sys2Proof.Machine

/-! ### setByte -/

@[simp] theorem setByte_cap (s : State) (i : Nat) (v : Byte) : (setByte i v s).cap = s.cap := rfl
@[simp] theorem setByte_buf (s : State) (i : Nat) (v : Byte) : (setByte i v s).buf = Memory.write s.buf i v := rfl
@[simp] theorem setByte_dphase (s : State) (i : Nat) (v : Byte) : (setByte i v s).dphase = s.dphase := rfl
@[simp] theorem setByte_didx (s : State) (i : Nat) (v : Byte) : (setByte i v s).didx = s.didx := rfl
@[simp] theorem setByte_port (s : State) (i : Nat) (v : Byte) : (setByte i v s).port = s.port := rfl
@[simp] theorem setByte_resetDone (s : State) (i : Nat) (v : Byte) : (setByte i v s).resetDone = s.resetDone := rfl
@[simp] theorem setByte_host (s : State) (i : Nat) (v : Byte) : (setByte i v s).host = s.host := rfl
@[simp] theorem setByte_source (s : State) (i : Nat) (v : Byte) : (setByte i v s).source = s.source := rfl
@[simp] theorem setByte_sink (s : State) (i : Nat) (v : Byte) : (setByte i v s).sink = s.sink := rfl
@[simp] theorem setByte_responses (s : State) (i : Nat) (v : Byte) : (setByte i v s).responses = s.responses := rfl
@[simp] theorem setByte_sinkGot (s : State) (i : Nat) (v : Byte) : (setByte i v s).sinkGot = s.sinkGot := rfl
@[simp] theorem setByte_draws (s : State) (i : Nat) (v : Byte) : (setByte i v s).draws = s.draws := rfl

/-! ### memWrite -/

@[simp] theorem memWrite_cap (s : State) (off : Nat) (data : List Byte) : (memWrite off data s).cap = s.cap := rfl
@[simp] theorem memWrite_buf (s : State) (off : Nat) (data : List Byte) : (memWrite off data s).buf = Memory.writeList s.buf off data := rfl
@[simp] theorem memWrite_dphase (s : State) (off : Nat) (data : List Byte) : (memWrite off data s).dphase = s.dphase := rfl
@[simp] theorem memWrite_didx (s : State) (off : Nat) (data : List Byte) : (memWrite off data s).didx = s.didx := rfl
@[simp] theorem memWrite_port (s : State) (off : Nat) (data : List Byte) : (memWrite off data s).port = s.port := rfl
@[simp] theorem memWrite_resetDone (s : State) (off : Nat) (data : List Byte) : (memWrite off data s).resetDone = s.resetDone := rfl
@[simp] theorem memWrite_host (s : State) (off : Nat) (data : List Byte) : (memWrite off data s).host = s.host := rfl
@[simp] theorem memWrite_source (s : State) (off : Nat) (data : List Byte) : (memWrite off data s).source = s.source := rfl
@[simp] theorem memWrite_sink (s : State) (off : Nat) (data : List Byte) : (memWrite off data s).sink = s.sink := rfl
@[simp] theorem memWrite_responses (s : State) (off : Nat) (data : List Byte) : (memWrite off data s).responses = s.responses := rfl
@[simp] theorem memWrite_sinkGot (s : State) (off : Nat) (data : List Byte) : (memWrite off data s).sinkGot = s.sinkGot := rfl
@[simp] theorem memWrite_draws (s : State) (off : Nat) (data : List Byte) : (memWrite off data s).draws = s.draws := rfl

/-! ### deliver -/

@[simp] theorem deliver_cap (s : State) (r : Response) : (deliver r s).cap = s.cap := rfl
@[simp] theorem deliver_buf (s : State) (r : Response) : (deliver r s).buf = s.buf := rfl
@[simp] theorem deliver_dphase (s : State) (r : Response) : (deliver r s).dphase = s.dphase := rfl
@[simp] theorem deliver_didx (s : State) (r : Response) : (deliver r s).didx = s.didx := rfl
@[simp] theorem deliver_port (s : State) (r : Response) : (deliver r s).port = .idle := rfl
@[simp] theorem deliver_resetDone (s : State) (r : Response) : (deliver r s).resetDone = s.resetDone := rfl
@[simp] theorem deliver_host (s : State) (r : Response) : (deliver r s).host = s.host := rfl
@[simp] theorem deliver_source (s : State) (r : Response) : (deliver r s).source = s.source := rfl
@[simp] theorem deliver_sink (s : State) (r : Response) : (deliver r s).sink = s.sink := rfl
@[simp] theorem deliver_responses (s : State) (r : Response) : (deliver r s).responses = s.responses ++ [r] := rfl
@[simp] theorem deliver_sinkGot (s : State) (r : Response) : (deliver r s).sinkGot = s.sinkGot := rfl
@[simp] theorem deliver_draws (s : State) (r : Response) : (deliver r s).draws = s.draws := rfl

/-! ### setDecoder -/

@[simp] theorem setDecoder_cap (s : State) (p : DPhase) (i : Nat) : (setDecoder p i s).cap = s.cap := rfl
@[simp] theorem setDecoder_buf (s : State) (p : DPhase) (i : Nat) : (setDecoder p i s).buf = s.buf := rfl
@[simp] theorem setDecoder_dphase (s : State) (p : DPhase) (i : Nat) : (setDecoder p i s).dphase = p := rfl
@[simp] theorem setDecoder_didx (s : State) (p : DPhase) (i : Nat) : (setDecoder p i s).didx = i := rfl
@[simp] theorem setDecoder_port (s : State) (p : DPhase) (i : Nat) : (setDecoder p i s).port = s.port := rfl
@[simp] theorem setDecoder_resetDone (s : State) (p : DPhase) (i : Nat) : (setDecoder p i s).resetDone = s.resetDone := rfl
@[simp] theorem setDecoder_host (s : State) (p : DPhase) (i : Nat) : (setDecoder p i s).host = s.host := rfl
@[simp] theorem setDecoder_source (s : State) (p : DPhase) (i : Nat) : (setDecoder p i s).source = s.source := rfl
@[simp] theorem setDecoder_sink (s : State) (p : DPhase) (i : Nat) : (setDecoder p i s).sink = s.sink := rfl
@[simp] theorem setDecoder_responses (s : State) (p : DPhase) (i : Nat) : (setDecoder p i s).responses = s.responses := rfl
@[simp] theorem setDecoder_sinkGot (s : State) (p : DPhase) (i : Nat) : (setDecoder p i s).sinkGot = s.sinkGot := rfl
@[simp] theorem setDecoder_draws (s : State) (p : DPhase) (i : Nat) : (setDecoder p i s).draws = s.draws := rfl

/-! ### endDecode -/

@[simp] theorem endDecode_cap (s : State) : (endDecode s).cap = s.cap := rfl
@[simp] theorem endDecode_buf (s : State) : (endDecode s).buf = s.buf := rfl
@[simp] theorem endDecode_dphase (s : State) : (endDecode s).dphase = .idle := rfl
@[simp] theorem endDecode_didx (s : State) : (endDecode s).didx = 0 := rfl
@[simp] theorem endDecode_port (s : State) : (endDecode s).port = s.port := rfl
@[simp] theorem endDecode_resetDone (s : State) : (endDecode s).resetDone = s.resetDone := rfl
@[simp] theorem endDecode_host (s : State) : (endDecode s).host = s.host := rfl
@[simp] theorem endDecode_source (s : State) : (endDecode s).source = s.source := rfl
@[simp] theorem endDecode_sink (s : State) : (endDecode s).sink = s.sink := rfl
@[simp] theorem endDecode_responses (s : State) : (endDecode s).responses = s.responses := rfl
@[simp] theorem endDecode_sinkGot (s : State) : (endDecode s).sinkGot = s.sinkGot := rfl
@[simp] theorem endDecode_draws (s : State) : (endDecode s).draws = s.draws := rfl

/-! ### setBusy -/

@[simp] theorem setBusy_cap (s : State) (c : WaitingCommand) : (setBusy c s).cap = s.cap := rfl
@[simp] theorem setBusy_buf (s : State) (c : WaitingCommand) : (setBusy c s).buf = s.buf := rfl
@[simp] theorem setBusy_dphase (s : State) (c : WaitingCommand) : (setBusy c s).dphase = s.dphase := rfl
@[simp] theorem setBusy_didx (s : State) (c : WaitingCommand) : (setBusy c s).didx = s.didx := rfl
@[simp] theorem setBusy_port (s : State) (c : WaitingCommand) : (setBusy c s).port = .busy c := rfl
@[simp] theorem setBusy_resetDone (s : State) (c : WaitingCommand) : (setBusy c s).resetDone = s.resetDone := rfl
@[simp] theorem setBusy_host (s : State) (c : WaitingCommand) : (setBusy c s).host = s.host := rfl
@[simp] theorem setBusy_source (s : State) (c : WaitingCommand) : (setBusy c s).source = s.source := rfl
@[simp] theorem setBusy_sink (s : State) (c : WaitingCommand) : (setBusy c s).sink = s.sink := rfl
@[simp] theorem setBusy_responses (s : State) (c : WaitingCommand) : (setBusy c s).responses = s.responses := rfl
@[simp] theorem setBusy_sinkGot (s : State) (c : WaitingCommand) : (setBusy c s).sinkGot = s.sinkGot := rfl
@[simp] theorem setBusy_draws (s : State) (c : WaitingCommand) : (setBusy c s).draws = s.draws := rfl

/-! ### handToSink -/

@[simp] theorem handToSink_cap (s : State) (l : List Byte) : (handToSink l s).cap = s.cap := rfl
@[simp] theorem handToSink_buf (s : State) (l : List Byte) : (handToSink l s).buf = s.buf := rfl
@[simp] theorem handToSink_dphase (s : State) (l : List Byte) : (handToSink l s).dphase = s.dphase := rfl
@[simp] theorem handToSink_didx (s : State) (l : List Byte) : (handToSink l s).didx = s.didx := rfl
@[simp] theorem handToSink_port (s : State) (l : List Byte) : (handToSink l s).port = s.port := rfl
@[simp] theorem handToSink_resetDone (s : State) (l : List Byte) : (handToSink l s).resetDone = s.resetDone := rfl
@[simp] theorem handToSink_host (s : State) (l : List Byte) : (handToSink l s).host = s.host := rfl
@[simp] theorem handToSink_source (s : State) (l : List Byte) : (handToSink l s).source = s.source := rfl
@[simp] theorem handToSink_sink (s : State) (l : List Byte) : (handToSink l s).sink = s.sink := rfl
@[simp] theorem handToSink_responses (s : State) (l : List Byte) : (handToSink l s).responses = s.responses := rfl
@[simp] theorem handToSink_sinkGot (s : State) (l : List Byte) : (handToSink l s).sinkGot = s.sinkGot ++ [l] := rfl
@[simp] theorem handToSink_draws (s : State) (l : List Byte) : (handToSink l s).draws = s.draws := rfl

/-! ### withdrawRead and resetBlock -/

theorem withdrawRead_cases (s : State) :
    withdrawRead s = s ∨
      awaitsSource s = true ∧ ∃ src, (src = s.source ∨ src = s.source.tail) ∧
        withdrawRead s = { s with source := src, draws := s.draws + 1 } := by
  unfold withdrawRead
  split
  · rename_i h
    refine .inr ⟨h, _, ?_, rfl⟩
    split
    · exact .inr rfl
    · exact .inl rfl
  · exact .inl rfl

@[simp] theorem withdrawRead_cap (s : State) : (withdrawRead s).cap = s.cap := by unfold withdrawRead; split <;> rfl
@[simp] theorem withdrawRead_buf (s : State) : (withdrawRead s).buf = s.buf := by unfold withdrawRead; split <;> rfl
@[simp] theorem withdrawRead_dphase (s : State) : (withdrawRead s).dphase = s.dphase := by unfold withdrawRead; split <;> rfl
@[simp] theorem withdrawRead_didx (s : State) : (withdrawRead s).didx = s.didx := by unfold withdrawRead; split <;> rfl
@[simp] theorem withdrawRead_port (s : State) : (withdrawRead s).port = s.port := by unfold withdrawRead; split <;> rfl
@[simp] theorem withdrawRead_resetDone (s : State) : (withdrawRead s).resetDone = s.resetDone := by unfold withdrawRead; split <;> rfl
@[simp] theorem withdrawRead_host (s : State) : (withdrawRead s).host = s.host := by unfold withdrawRead; split <;> rfl
@[simp] theorem withdrawRead_sink (s : State) : (withdrawRead s).sink = s.sink := by unfold withdrawRead; split <;> rfl
@[simp] theorem withdrawRead_responses (s : State) : (withdrawRead s).responses = s.responses := by unfold withdrawRead; split <;> rfl
@[simp] theorem withdrawRead_sinkGot (s : State) : (withdrawRead s).sinkGot = s.sinkGot := by unfold withdrawRead; split <;> rfl

@[simp] theorem resetBlock_cap (s : State) : (resetBlock s).cap = s.cap := withdrawRead_cap s
@[simp] theorem resetBlock_buf (s : State) : (resetBlock s).buf = [] := rfl
@[simp] theorem resetBlock_dphase (s : State) : (resetBlock s).dphase = .idle := rfl
@[simp] theorem resetBlock_didx (s : State) : (resetBlock s).didx = 0 := rfl
@[simp] theorem resetBlock_port (s : State) : (resetBlock s).port = .idle := rfl
@[simp] theorem resetBlock_resetDone (s : State) : (resetBlock s).resetDone = true := rfl
@[simp] theorem resetBlock_host (s : State) : (resetBlock s).host = s.host := withdrawRead_host s
@[simp] theorem resetBlock_source (s : State) : (resetBlock s).source = (withdrawRead s).source := rfl
@[simp] theorem resetBlock_sink (s : State) : (resetBlock s).sink = s.sink := withdrawRead_sink s
@[simp] theorem resetBlock_responses (s : State) : (resetBlock s).responses = s.responses := withdrawRead_responses s
@[simp] theorem resetBlock_sinkGot (s : State) : (resetBlock s).sinkGot = s.sinkGot := withdrawRead_sinkGot s
@[simp] theorem resetBlock_draws (s : State) : (resetBlock s).draws = (withdrawRead s).draws := rfl

/-! ### State.resetOf -/

@[simp] theorem resetOf_cap (cap : Capacity) : (State.resetOf cap).cap = cap := rfl
@[simp] theorem resetOf_buf (cap : Capacity) : (State.resetOf cap).buf = [] := rfl
@[simp] theorem resetOf_dphase (cap : Capacity) : (State.resetOf cap).dphase = .idle := rfl
@[simp] theorem resetOf_didx (cap : Capacity) : (State.resetOf cap).didx = 0 := rfl
@[simp] theorem resetOf_port (cap : Capacity) : (State.resetOf cap).port = .idle := rfl
@[simp] theorem resetOf_resetDone (cap : Capacity) : (State.resetOf cap).resetDone = true := rfl
@[simp] theorem resetOf_host (cap : Capacity) : (State.resetOf cap).host = [] := rfl
@[simp] theorem resetOf_source (cap : Capacity) : (State.resetOf cap).source = [] := rfl
@[simp] theorem resetOf_sink (cap : Capacity) : (State.resetOf cap).sink = [] := rfl
@[simp] theorem resetOf_responses (cap : Capacity) : (State.resetOf cap).responses = [] := rfl
@[simp] theorem resetOf_sinkGot (cap : Capacity) : (State.resetOf cap).sinkGot = [] := rfl
@[simp] theorem resetOf_draws (cap : Capacity) : (State.resetOf cap).draws = 0 := rfl

end Sys2Proof.Machine
end

