-- ==== Sys2Proof/Laws/Ops.lean ====
section
/-! SUPPORT. One lemma per shared operation: what the buffer primitives, the port, the checks, the codec and the decoder
can do, cited instead of unfolding them. -/

namespace Sys2Proof.Machine

variable {s t : State} {r : Result}

/-! ### The buffer -/

theorem byteAt_setByte (s : State) (i : Nat) (v : Byte) (j : Nat) :
    byteAt (setByte i v s) j = if i = j then v else byteAt s j := Memory.read_write s.buf i v j

@[simp] theorem byteAt_setByte_self (s : State) (i : Nat) (v : Byte) : byteAt (setByte i v s) i = v := by
  simp [byteAt_setByte]

theorem byteAt_setByte_of_ne {i j : Nat} (h : i ≠ j) (s : State) (v : Byte) :
    byteAt (setByte i v s) j = byteAt s j := by simp [byteAt_setByte, h]

theorem byteAt_memWrite (s : State) (off : Nat) (data : List Byte) (j : Nat) :
    byteAt (memWrite off data s) j = if off ≤ j then (data[j - off]?).getD (byteAt s j) else byteAt s j :=
  Memory.read_writeList s.buf off data j

/-- The buffer alone decides what is read. -/
theorem byteAt_congr (h : t.buf = s.buf) (i : Nat) : byteAt t i = byteAt s i := by simp [byteAt, h]

@[simp] theorem byteAt_deliver (s : State) (x : Response) (i : Nat) : byteAt (deliver x s) i = byteAt s i := rfl
@[simp] theorem byteAt_setDecoder (s : State) (p : DPhase) (k i : Nat) : byteAt (setDecoder p k s) i = byteAt s i := rfl
@[simp] theorem byteAt_endDecode (s : State) (i : Nat) : byteAt (endDecode s) i = byteAt s i := rfl
@[simp] theorem byteAt_setBusy (s : State) (c : WaitingCommand) (i : Nat) : byteAt (setBusy c s) i = byteAt s i := rfl
@[simp] theorem byteAt_handToSink (s : State) (l : List Byte) (i : Nat) : byteAt (handToSink l s) i = byteAt s i := rfl
@[simp] theorem byteAt_resetBlock (s : State) (i : Nat) : byteAt (resetBlock s) i = 0x00#8 := rfl

@[simp] theorem memRead_length (s : State) (off n : Nat) : (memRead s off n).length = n := by simp [memRead]

theorem memRead_getElem? (s : State) (off n k : Nat) (h : k < n) :
    (memRead s off n)[k]? = some (byteAt s (off + k)) := by simp [memRead, h]

theorem memRead_succ (s : State) (off n : Nat) : memRead s off (n + 1) = memRead s off n ++ [byteAt s (off + n)] := by
  simp [memRead, List.range_succ]

theorem memRead_congr {off n : Nat} (h : ∀ k, k < n → byteAt t (off + k) = byteAt s (off + k)) :
    memRead t off n = memRead s off n := by
  simp only [memRead]
  exact List.map_congr_left (fun k hk => h k (List.mem_range.mp hk))

/-! ### Responses and the port -/

theorem turnedAway_of_ready (h : Ready s) : turnedAway s = none := by simp [turnedAway, h.1, h.2]

/-- The port takes a command exactly when it is ready. -/
theorem accepted_of_ready (h : Ready s) (r : Result) : accepted s r = r := by
  simp [accepted, turnedAway_of_ready h]

theorem accepted_of_no_reset (h : s.resetDone = false) (r : Result) : accepted s r = .refused .beforeFirstReset := by
  simp [accepted, turnedAway, h]

theorem accepted_of_busy (h : s.resetDone = true) (hp : s.port ≠ .idle) (r : Result) :
    accepted s r = .refused .commandWhileBusy := by simp [accepted, turnedAway, h, hp]

/-- A command that answers next was taken by a ready port. -/
theorem accepted_next (h : accepted s r = .next t) : Ready s ∧ r = .next t := by
  by_cases h1 : s.resetDone = true
  · by_cases h2 : s.port = .idle
    · exact ⟨⟨h1, h2⟩, by rwa [accepted_of_ready ⟨h1, h2⟩] at h⟩
    · rw [accepted_of_busy h1 h2] at h; cases h
  · rw [accepted_of_no_reset (by simpa using h1)] at h; cases h

theorem respond_next {d : RData} (h : respond d s = .next t) : t = deliver ⟨.ok, d⟩ s := by
  simp only [respond, Host.Outcome.next.injEq] at h; exact h.symm

theorem raise_next {e : Error} (h : raise e s = .next t) : t = deliver e.response s := by
  simp only [raise, Host.Outcome.next.injEq] at h; exact h.symm

theorem abort_next {e : Error} (h : abort e s = .next t) : t = deliver e.response (endDecode s) := raise_next h

/-- Past the bounds check, or OUT_OF_BOUNDS. -/
theorem withinBounds_cases (s : State) (off n : Nat) (r : Result) :
    (off + n ≤ s.cap.val ∧ withinBounds s off n r = r) ∨
      (s.cap.val < off + n ∧ withinBounds s off n r = .next (deliver ⟨.outOfBounds, .bounds off n⟩ s)) := by
  unfold withinBounds
  split
  · rename_i h; exact .inl ⟨h, rfl⟩
  · rename_i h; exact .inr ⟨Nat.lt_of_not_le h, rfl⟩

/-- Past the check of the size field, or SIZE_ERROR. -/
theorem withLayout_cases (s : State) (k : Nat → Result) :
    (sizeOK s (sizeField s) ∧ withLayout s k = k (sizeField s).toNat) ∨
      (¬ sizeOK s (sizeField s) ∧ withLayout s k = .next (deliver ⟨.sizeError, .byte (sizeField s)⟩ s)) := by
  unfold withLayout
  split
  · rename_i h; exact .inl ⟨h, rfl⟩
  · rename_i h; exact .inr ⟨h, rfl⟩

/-! ### Sizes -/

theorem maxSize_eq (s : State) : maxSize s = min 255 (s.cap.val - 3) := rfl

theorem maxSize_congr (h : t.cap = s.cap) : maxSize t = maxSize s := by simp [maxSize, h]

/-- A legal size keeps the frame's last offset below CAP (R23). -/
theorem frame_below_cap {z : Byte} (h : sizeOK s z) : 2 + z.toNat < s.cap.val := by
  have := s.cap.property
  have := h.2
  rw [maxSize_eq] at this
  omega

theorem maxPayload_lt (s : State) : maxPayload s + 1 = maxSize s ∧ 3 + maxPayload s < s.cap.val := by
  have := s.cap.property
  simp only [maxPayload, maxSize]
  omega

/-! ### Checksum and codec -/

theorem sumBytes_append (l : List Byte) (b : Byte) : sumBytes (l ++ [b]) = sumBytes l + b := by
  simp [sumBytes]

@[simp] theorem sumBytes_nil : sumBytes [] = 0x00#8 := rfl

theorem frameSum_zero (s : State) : frameSum s 0 = byteAt s 1 := by
  simp [frameSum, memRead, sumBytes, offAddr]

theorem frameSum_succ (s : State) (n : Nat) : frameSum s (n + 1) = frameSum s n + byteAt s (2 + n) := by
  have h : offAddr + (n + 1) = 2 + n := by simp only [offAddr]; omega
  rw [frameSum, memRead_succ, sumBytes_append, h]; rfl

theorem frameSum_congr {n : Nat} (h : ∀ i, 1 ≤ i → i ≤ 1 + n → byteAt t i = byteAt s i) :
    frameSum t n = frameSum s n := by
  unfold frameSum
  rw [memRead_congr]
  intro k hk
  exact h _ (by simp [offAddr]) (by simp only [offAddr]; omega)

theorem wireImage_congr {n : Nat} (h : ∀ i, 1 ≤ i → i ≤ 2 + n → byteAt t i = byteAt s i) :
    wireImage t n = wireImage s n := by
  unfold wireImage
  rw [memRead_congr]
  intro k hk
  exact h _ (by simp [offAddr]) (by simp only [offAddr]; omega)

/-- The stamp stands where the sum does not read. -/
theorem frameSum_stamp (s : State) (n : Nat) : frameSum (stamp n s) n = frameSum s n :=
  frameSum_congr (fun i _ hi => byteAt_setByte_of_ne (by simp only [offCk]; omega) _ _)

@[simp] theorem storedSum_stamp (s : State) (n : Nat) : storedSum (stamp n s) n = frameSum s n := by
  simp [storedSum, stamp]

@[simp] theorem stamp_cap (s : State) (n : Nat) : (stamp n s).cap = s.cap := rfl

theorem sizeField_stamp {n : Nat} (s : State) (h : 1 ≤ n) : sizeField (stamp n s) = sizeField s :=
  byteAt_setByte_of_ne (by simp only [offCk, offSize]; omega) _ _

theorem esc_cases (b : Byte) :
    ((b = SYNC ∨ b = ESC) ∧ esc b = [ESC, b - 1#8] ∧ b - 1#8 ≠ ESC ∧ b - 1#8 ≠ SYNC) ∨
      (b ≠ SYNC ∧ b ≠ ESC ∧ esc b = [b]) := by
  by_cases h : b = SYNC ∨ b = ESC
  · refine .inl ⟨h, by simp [esc, h], ?_⟩
    rcases h with rfl | rfl <;> decide
  · refine .inr ⟨fun hb => h (.inl hb), fun hb => h (.inr hb), by simp [esc, h]⟩

/-! ### The decoder -/

/-- The block waits for the source exactly when a decode is in progress. -/
theorem awaitsSource_iff (s : State) :
    awaitsSource s = true ↔ s.resetDone = true ∧ Decoding s ∧ s.dphase ≠ .idle := by
  simp [awaitsSource, Decoding, and_assoc]

theorem awaitsSink_iff (s : State) : awaitsSink s = true ↔ s.resetDone = true ∧ s.port = .busy .writeFrame := by
  simp [awaitsSink]

/-- The block never waits for both. -/
theorem not_awaitsSink (h : awaitsSource s = true) : awaitsSink s = false := by
  obtain ⟨-, h2 | h2, -⟩ := (awaitsSource_iff s).mp h <;> simp [awaitsSink, h2]

/-- A complete frame ends the decode with its response, and changes nothing else. -/
theorem completeFrame_eq (s : State) :
    completeFrame s = .next (deliver (completionResponse s.port s) (endDecode s)) := by
  have hs : ∀ n, storedSum (endDecode s) n = storedSum s n := fun _ => rfl
  have hf : ∀ n, frameSum (endDecode s) n = frameSum s n := fun _ => rfl
  have hz : sizeField (endDecode s) = sizeField s := rfl
  unfold completeFrame
  split
  · rename_i h
    simp only [checkFrame, completionResponse, h, hz, hs, hf, true_and]
    split
    · rename_i he; simp [he, respond]
    · simp [raise, Error.response, Error.status, Error.rdata]
  · rename_i h
    have : s.port ≠ .busy .readFrame := h
    simp [completionResponse, this, respond]

/-- Store below CAP, whole: an illegal size byte, a complete frame, or on to the next offset. -/
theorem store_cases (s : State) (v : Byte) (h : s.didx < s.cap.val) :
    (s.didx = 2 ∧ ¬ sizeOK s v ∧
        store v s = .next (deliver ⟨.sizeError, .byte v⟩ (endDecode (setByte s.didx v s)))) ∨
      (¬ (s.didx = 2 ∧ ¬ sizeOK s v) ∧ 3 ≤ s.didx ∧ s.didx = 2 + (byteAt s 2).toNat ∧
        store v s = .next (deliver (completionResponse s.port (setByte s.didx v s)) (endDecode (setByte s.didx v s)))) ∨
      (¬ (s.didx = 2 ∧ ¬ sizeOK s v) ∧ ¬ (3 ≤ s.didx ∧ s.didx = 2 + (byteAt s 2).toNat) ∧
        store v s = .next (setDecoder .normal (s.didx + 1) (setByte s.didx v s))) := by
  have hm : sizeOK (setByte s.didx v s) v ↔ sizeOK s v := Iff.rfl
  have hz : 3 ≤ s.didx → sizeField (setByte s.didx v s) = byteAt s 2 := fun h3 =>
    byteAt_setByte_of_ne (by simp only [offSize]; omega) _ _
  unfold store
  rw [if_pos h]
  by_cases h1 : s.didx = 2 ∧ ¬ sizeOK s v
  · have h1' : s.didx = offSize ∧ ¬ sizeOK (setByte s.didx v s) v := h1
    exact .inl ⟨h1.1, h1.2, if_pos h1'⟩
  · have h1' : ¬ (s.didx = offSize ∧ ¬ sizeOK (setByte s.didx v s) v) := h1
    refine .inr ?_
    by_cases h2 : 3 ≤ s.didx ∧ s.didx = 2 + (byteAt s 2).toNat
    · have h2' : offPay ≤ s.didx ∧ s.didx = offCk (sizeField (setByte s.didx v s)).toNat := by
        rw [hz h2.1]; exact h2
      exact .inl ⟨h1, h2.1, h2.2, (if_neg h1').trans ((if_pos h2').trans (completeFrame_eq _))⟩
    · have h2' : ¬ (offPay ≤ s.didx ∧ s.didx = offCk (sizeField (setByte s.didx v s)).toNat) := by
        rintro ⟨h3, h4⟩
        rw [hz h3] at h4
        exact h2 ⟨h3, h4⟩
      exact .inr ⟨h1, h2, (if_neg h1').trans (if_neg h2')⟩

/-- Store at or above CAP is the one fault of the machine. -/
theorem store_of_not_lt (s : State) (v : Byte) (h : ¬ s.didx < s.cap.val) : store v s = .fault (.bufferRange s.didx) := by
  simp [store, h]

/-- One wire byte, whole: a row of R123. -/
theorem takeByte_cases (s : State) (w : Byte) (h : awaitsSource s = true) :
    (s.dphase = .sync ∧ w = SYNC ∧ takeByte w s = .next (acceptSync s)) ∨
      (s.dphase = .sync ∧ w ≠ SYNC ∧ takeByte w s = .next (deliver ⟨.frameSyncError, .byte w⟩ (endDecode s))) ∨
      (s.dphase = .normal ∧ w = ESC ∧ takeByte w s = .next (setDecoder .escSeen s.didx s)) ∨
      (s.dphase = .normal ∧ w ≠ ESC ∧ takeByte w s = store w s) ∨
      (s.dphase = .escSeen ∧ takeByte w s = store (unesc w) s) := by
  have hi := ((awaitsSource_iff s).mp h).2.2
  unfold takeByte
  rw [if_pos h]
  cases hp : s.dphase with
  | idle => exact absurd hp hi
  | sync =>
    by_cases hw : w = SYNC
    · exact .inl ⟨rfl, hw, by simp [hw]⟩
    · exact .inr (.inl ⟨rfl, hw, by simp only [if_neg hw]; rfl⟩)
  | normal =>
    by_cases hw : w = ESC
    · exact .inr (.inr (.inl ⟨rfl, hw, by simp [hw]⟩))
    · exact .inr (.inr (.inr (.inl ⟨rfl, hw, by simp [hw]⟩)))
  | escSeen => exact .inr (.inr (.inr (.inr ⟨rfl, rfl⟩)))

theorem byteAt_acceptSync (s : State) (i : Nat) :
    byteAt (acceptSync s) i = if i = 0 then SYNC else byteAt s i := by
  simp only [acceptSync, byteAt_setDecoder, byteAt_setByte, offSync, eq_comm]

theorem takeByte_of_not_awaits (s : State) (w : Byte) (h : awaitsSource s = false) :
    takeByte w s = .refused .decoderNotWaiting := by simp [takeByte, h]

/-! ### RESET -/

theorem withdrawRead_of_not_awaits (h : awaitsSource s = false) : withdrawRead s = s := by simp [withdrawRead, h]

end Sys2Proof.Machine
end

