-- ==== Sys2Proof/Laws/PerInstr.lean ====
section
/-! SUPPORT. The family CodeFamily: bits [7:4] of a command's code name the family R59 puts it in, and a wire symbol has
no family and one or two wire bytes (30_encoding.md R56, R62). One lemma per instruction. -/

namespace Sys2Proof.Laws.CodeFamily

/-- What the encoding of an instruction says of its family. -/
def Statement (i : Instr) : Prop :=
  match encode i with
  | .transaction t => t.code ∈ assignedCodes ∧ familyOf t.code = familyOfInstr i ∧ (familyOfInstr i).isSome = true
  | .firstSymbol wire => familyOfInstr i = none ∧ wire.length = 1
  | .symbol wire => familyOfInstr i = none ∧ 1 ≤ wire.length ∧ wire.length ≤ 2

theorem bufRd (off : Half) : Statement (.bufRd off) :=
  ⟨(by decide : (0x01#8 : Byte) ∈ assignedCodes), (by decide : familyOf 0x01#8 = some .bytePort), rfl⟩

theorem bufWr (off : Half) (v : Byte) : Statement (.bufWr off v) :=
  ⟨(by decide : (0x02#8 : Byte) ∈ assignedCodes), (by decide : familyOf 0x02#8 = some .bytePort), rfl⟩

theorem bufRdRange (off : Half) (len : Half) : Statement (.bufRdRange off len) :=
  ⟨(by decide : (0x03#8 : Byte) ∈ assignedCodes), (by decide : familyOf 0x03#8 = some .bytePort), rfl⟩

theorem bufWrRange (off : Half) (data : List Byte) : Statement (.bufWrRange off data) :=
  ⟨(by decide : (0x04#8 : Byte) ∈ assignedCodes), (by decide : familyOf 0x04#8 = some .bytePort), rfl⟩

theorem sizeRd : Statement .sizeRd :=
  ⟨(by decide : (0x10#8 : Byte) ∈ assignedCodes), (by decide : familyOf 0x10#8 = some .packetFields), rfl⟩

theorem sizeWr (n : Byte) : Statement (.sizeWr n) :=
  ⟨(by decide : (0x11#8 : Byte) ∈ assignedCodes), (by decide : familyOf 0x11#8 = some .packetFields), rfl⟩

theorem payloadRd : Statement .payloadRd :=
  ⟨(by decide : (0x12#8 : Byte) ∈ assignedCodes), (by decide : familyOf 0x12#8 = some .packetFields), rfl⟩

theorem payloadWr (data : List Byte) : Statement (.payloadWr data) :=
  ⟨(by decide : (0x13#8 : Byte) ∈ assignedCodes), (by decide : familyOf 0x13#8 = some .packetFields), rfl⟩

theorem csumRd : Statement .csumRd :=
  ⟨(by decide : (0x20#8 : Byte) ∈ assignedCodes), (by decide : familyOf 0x20#8 = some .checksum), rfl⟩

theorem csumCalc : Statement .csumCalc :=
  ⟨(by decide : (0x21#8 : Byte) ∈ assignedCodes), (by decide : familyOf 0x21#8 = some .checksum), rfl⟩

theorem csumStamp : Statement .csumStamp :=
  ⟨(by decide : (0x22#8 : Byte) ∈ assignedCodes), (by decide : familyOf 0x22#8 = some .checksum), rfl⟩

theorem validate : Statement .validate :=
  ⟨(by decide : (0x30#8 : Byte) ∈ assignedCodes), (by decide : familyOf 0x30#8 = some .validator), rfl⟩

theorem encode : Statement .encode :=
  ⟨(by decide : (0x40#8 : Byte) ∈ assignedCodes), (by decide : familyOf 0x40#8 = some .transcoder), rfl⟩

theorem decode : Statement .decode :=
  ⟨(by decide : (0x41#8 : Byte) ∈ assignedCodes), (by decide : familyOf 0x41#8 = some .transcoder), rfl⟩

theorem readFrame : Statement .readFrame :=
  ⟨(by decide : (0x50#8 : Byte) ∈ assignedCodes), (by decide : familyOf 0x50#8 = some .stream), rfl⟩

theorem writeFrame : Statement .writeFrame :=
  ⟨(by decide : (0x51#8 : Byte) ∈ assignedCodes), (by decide : familyOf 0x51#8 = some .stream), rfl⟩

theorem wireSync : Statement .wireSync := ⟨rfl, rfl⟩

theorem wireEscaped (e : Byte) : Statement (.wireEscaped e) := ⟨rfl, by simp, by simp⟩

theorem wireLiteral (w : Byte) : Statement (.wireLiteral w) := ⟨rfl, by simp, by simp⟩

end Sys2Proof.Laws.CodeFamily
end

