-- ==== Sys2Proof/Laws/Step.lean ====
section
/-! SUPPORT. What a turn and a step can be: one inversion lemma for the choice of the turn and one for the step. -/

namespace Sys2Proof.Machine

variable {s t : State}

/-- The host's list of moves does not decide whether the block waits. -/
@[simp] theorem awaitsSource_host (s : State) (h : List HostMove) :
    awaitsSource { s with host := h } = awaitsSource s := rfl

@[simp] theorem awaitsSource_source (s : State) (l : List SourceAnswer) :
    awaitsSource { s with source := l } = awaitsSource s := rfl

@[simp] theorem awaitsSink_host (s : State) (h : List HostMove) :
    awaitsSink { s with host := h } = awaitsSink s := rfl

/-- The turn of the source or the sink: an answer while the block waits for it, else nothing. -/
theorem answerTurn_cases (s : State) :
    (∃ a src, awaitsSource s = true ∧ s.source = a :: src ∧
        answerTurn s = ⟨.sourceAnswers a, { s with source := src }⟩) ∨
      (∃ a snk, awaitsSink s = true ∧ s.sink = a :: snk ∧ answerTurn s = ⟨.sinkAnswers a, { s with sink := snk }⟩) ∨
      answerTurn s = ⟨.quiet, s⟩ := by
  unfold answerTurn
  split
  · rename_i h
    split
    · exact .inr (.inr rfl)
    · rename_i a src hs
      exact .inl ⟨a, src, h, hs, rfl⟩
  · split
    · rename_i h
      split
      · exact .inr (.inr rfl)
      · rename_i a snk hs
        exact .inr (.inl ⟨a, snk, h, hs, rfl⟩)
    · exact .inr (.inr rfl)

/-- While a command is in progress and the host waits, the turn is the one of the source or the sink. -/
theorem nextTurn_of_hostWaits (h : HostWaits s) (hp : portFree s = false) : nextTurn s = answerTurn s := by
  unfold nextTurn
  split
  · rfl
  · rename_i rest e; exact absurd rfl (h _ _ e).2
  · rename_i rest e; exact absurd rfl (h _ _ e).1
  · rw [hp]; rfl
  · rw [hp]; rfl

/-- A RESET at the front of the host's moves is the step, whatever the block is doing. -/
theorem step_of_reset {rest : List HostMove} (h : s.host = .reset :: rest) :
    step s = .next (resetBlock { s with host := rest }) := by
  have hn : nextTurn s = ⟨.reset, { s with host := rest }⟩ := by simp [nextTurn, h]
  simp only [step, hn]

/-- RESET of a block that waits for no read leaves the source alone and draws nothing. -/
theorem resetBlock_of_not_awaits (h : awaitsSource s = false) :
    resetBlock s = { s with buf := [], dphase := .idle, didx := 0, port := .idle, resetDone := true } := by
  simp [resetBlock, withdrawRead_of_not_awaits h]

/-- A block that waits for the source or the sink holds the port. -/
theorem portFree_of_awaits (h : awaitsSource s = true ∨ awaitsSink s = true) : portFree s = false := by
  rcases h with h | h
  · obtain ⟨hr, hp, _⟩ := (awaitsSource_iff s).mp h
    rcases hp with hp | hp <;> simp [portFree, hr, hp]
  · obtain ⟨hr, hp⟩ := (awaitsSink_iff s).mp h
    simp [portFree, hr, hp]

/-- The next turn, whole: RESET, an offered transaction at a free port, or the turn of the source or the sink, in each case
with the host's move taken where it made one. -/
theorem nextTurn_cases (s : State) :
    (∃ rest, s.host = .reset :: rest ∧ nextTurn s = ⟨.reset, { s with host := rest }⟩) ∨
      (∃ x rest, (s.host = .command x :: rest ∨ s.host = .ifOk x :: rest) ∧ portFree s = true ∧
        nextTurn s = ⟨.offer x, { s with host := rest }⟩) ∨
      (∃ hs, nextTurn s = answerTurn { s with host := hs }) ∨
      (∃ hs, nextTurn s = ⟨.quiet, { s with host := hs }⟩) := by
  unfold nextTurn
  split
  · exact .inr (.inr (.inl ⟨s.host, rfl⟩))
  · rename_i rest h
    exact .inr (.inr (.inl ⟨rest, rfl⟩))
  · rename_i rest h
    exact .inl ⟨rest, h, rfl⟩
  · rename_i x rest h
    split
    · rename_i hp
      exact .inr (.inl ⟨x, rest, .inl h, hp, rfl⟩)
    · exact .inr (.inr (.inl ⟨s.host, rfl⟩))
  · rename_i x rest h
    split
    · rename_i hp
      split
      · exact .inr (.inl ⟨x, rest, .inr h, hp, rfl⟩)
      · exact .inr (.inr (.inr ⟨rest, rfl⟩))
    · exact .inr (.inr (.inl ⟨s.host, rfl⟩))

/-- The step of a state whose turn is the source's byte is that byte taken by the decoder, whatever symbol it completes. -/
theorem step_of_byte {u : State} {w : Byte} (h : nextTurn s = ⟨.sourceAnswers (.byte w), u⟩)
    (ha : awaitsSource u = true) : step s = takeByte w u := by
  have hi := ((awaitsSource_iff u).mp ha).2.2
  simp only [step, h]
  cases hp : u.dphase with
  | idle => exact absurd hp hi
  | sync =>
    by_cases hw : w = SYNC
    · subst hw; simp [wirePlace, readWireByte, exec, execWireSync]
    · simp [wirePlace, readWireByte, hw]
  | normal =>
    by_cases hw : w = ESC
    · subst hw; simp [wirePlace, readWireByte]
    · simp [wirePlace, readWireByte, hw, exec, execWireLiteral]
  | escSeen => simp [wirePlace, readWireByte, exec, execWireEscaped, hp]

/-- A transaction decodes to a command, never to a wire symbol, and is rejected by name only. -/
theorem decodeTransaction_cases (x : Transaction) :
    (∃ i y, decodeTransaction x = .instr i ∧ encode i = .transaction y) ∨
      decodeTransaction x = .reject (.unassignedCode x.code) ∨
      decodeTransaction x = .reject (.operandShape x.code) := by
  unfold decodeTransaction
  repeat' split
  all_goals first
    | exact .inl ⟨_, _, rfl, rfl⟩
    | exact .inr (.inl rfl)
    | exact .inr (.inr rfl)
    | skip
  all_goals
    unfold decodeTransaction.noOperands
    split
    · exact .inl ⟨_, _, rfl, rfl⟩
    · exact .inr (.inr rfl)

/-- A command that answers next was taken by a ready port. -/
theorem exec_command_ready {i : Instr} {y : Transaction} (he : encode i = .transaction y) (h : exec i s = .next t) :
    Ready s := by
  cases i with
  | wireSync => exact absurd he (by simp [encode])
  | wireEscaped e => exact absurd he (by simp [encode])
  | wireLiteral w => exact absurd he (by simp [encode])
  | _ => exact (accepted_next h).1

/-- A step that answers next, whole. -/
theorem step_cases (h : step s = .next t) :
    (∃ rest, s.host = .reset :: rest ∧ t = resetBlock { s with host := rest }) ∨
      (∃ x rest i y, (s.host = .command x :: rest ∨ s.host = .ifOk x :: rest) ∧ Ready s ∧
        decode (.transaction x) = .instr i ∧ encode i = .transaction y ∧ exec i { s with host := rest } = .next t) ∨
      (∃ x rest, (s.host = .command x :: rest ∨ s.host = .ifOk x :: rest) ∧ Ready s ∧
        decode (.transaction x) = .reject (.unassignedCode x.code) ∧
        t = deliver ⟨.illegalCommand, .byte x.code⟩ { s with host := rest }) ∨
      (∃ hs src w, awaitsSource s = true ∧ s.source = .byte w :: src ∧
        takeByte w { s with host := hs, source := src } = .next t) ∨
      (∃ hs src, awaitsSource s = true ∧ s.source = .eof :: src ∧
        t = deliver ⟨.unexpectedEndOfStream, .position s.didx⟩ (endDecode { s with host := hs, source := src })) ∨
      (∃ hs src, awaitsSource s = true ∧ s.source = .ioerr :: src ∧
        t = deliver ⟨.ioError, .atSource s.didx⟩ (endDecode { s with host := hs, source := src })) ∨
      (∃ hs snk a, awaitsSink s = true ∧ s.sink = a :: snk ∧
        t = deliver (if a = .ok then ⟨.ok, .none⟩ else ⟨.ioError, .atSink⟩) { s with host := hs, sink := snk }) ∨
      (∃ hs, t = { s with host := hs }) := by
  rcases nextTurn_cases s with ⟨rest, hh, hn⟩ | ⟨x, rest, hh, hp, hn⟩ | ⟨hs, hn⟩ | ⟨hs, hn⟩
  · simp only [step, hn, Host.Outcome.next.injEq] at h
    exact .inl ⟨rest, hh, h.symm⟩
  · simp only [step, hn] at h
    rcases decodeTransaction_cases x with ⟨i, y, hd, he⟩ | hd | hd
    · have hd' : decode (.transaction x) = .instr i := hd
      simp only [hd'] at h
      have hr : Ready s := exec_command_ready (s := { s with host := rest }) he h
      exact .inr (.inl ⟨x, rest, i, y, hh, hr, hd, he, h⟩)
    · have hd' : decode (.transaction x) = .reject (.unassignedCode x.code) := hd
      simp only [hd', rejectTransaction] at h
      obtain ⟨hr, h⟩ := accepted_next h
      exact .inr (.inr (.inl ⟨x, rest, hh, hr, hd, raise_next h⟩))
    · have hd' : decode (.transaction x) = .reject (.operandShape x.code) := hd
      simp only [hd', rejectTransaction] at h
      cases h
  · rcases answerTurn_cases { s with host := hs } with ⟨a, src, ha, hsrc, ht⟩ | ⟨a, snk, ha, hsnk, ht⟩ | ht
    · rw [ht] at hn
      cases a with
      | byte w =>
        rw [step_of_byte hn ha] at h
        exact .inr (.inr (.inr (.inl ⟨hs, src, w, ha, hsrc, h⟩)))
      | eof =>
        simp only [step, hn] at h
        exact .inr (.inr (.inr (.inr (.inl ⟨hs, src, ha, hsrc, abort_next h⟩))))
      | ioerr =>
        simp only [step, hn] at h
        exact .inr (.inr (.inr (.inr (.inr (.inl ⟨hs, src, ha, hsrc, abort_next h⟩)))))
    · rw [ht] at hn
      simp only [step, hn] at h
      refine .inr (.inr (.inr (.inr (.inr (.inr (.inl ⟨hs, snk, a, ha, hsnk, ?_⟩))))))
      cases a with
      | ok => exact respond_next h
      | ioerr => exact raise_next h
    · rw [ht] at hn
      simp only [step, hn, Host.Outcome.next.injEq] at h
      exact .inr (.inr (.inr (.inr (.inr (.inr (.inr ⟨hs, h.symm⟩))))))
  · simp only [step, hn, Host.Outcome.next.injEq] at h
    exact .inr (.inr (.inr (.inr (.inr (.inr (.inr ⟨hs, h.symm⟩))))))

end Sys2Proof.Machine
end

