-- ==== Sys2Proof/Laws/Run.lean ====
section
/-! SUPPORT. Runs of several steps: Host.Core.run of this machine, one step at a time. -/

namespace Sys2Proof.Machine

variable {s t u : State}

theorem run_zero (s : State) : Host.Core.run Sys2Proof.core 0 s = .next s := rfl

/-- A run goes on from where its first step leads. -/
theorem run_succ_of_next {k : Nat} (h : step s = .next t) :
    Host.Core.run Sys2Proof.core (k + 1) s = Host.Core.run Sys2Proof.core k t := by
  have h' : Sys2Proof.core.step s = .next t := h
  simp only [Host.Core.run, h']

theorem run_one (h : step s = .next t) : Host.Core.run Sys2Proof.core 1 s = .next t :=
  (run_succ_of_next h).trans (run_zero t)

/-- A run that ends in a state can be carried on from it. -/
theorem run_add {a b : Nat} {r : Result} (h : Host.Core.run Sys2Proof.core a s = .next t)
    (hr : Host.Core.run Sys2Proof.core b t = r) : Host.Core.run Sys2Proof.core (a + b) s = r := by
  induction a generalizing s with
  | zero => cases h; simpa using hr
  | succ a ih =>
    cases hs : step s with
    | next v =>
      rw [run_succ_of_next hs] at h
      rw [Nat.succ_add, run_succ_of_next hs]
      exact ih h
    | fault f =>
      have h' : Sys2Proof.core.step s = .fault f := hs
      simp only [Host.Core.run, h'] at h
      cases h
    | refused w =>
      have h' : Sys2Proof.core.step s = .refused w := hs
      simp only [Host.Core.run, h'] at h
      cases h

end Sys2Proof.Machine
end

