-- ==== Sys2Proof/Machine/Assembler.lean ====
section
/-! DEFINITION. The written form of commands, responses, programs and streams (30_encoding.md R68 to R71). Where R68 lets a number be decimal or
hexadecimal, offsets and lengths are written in decimal and bytes in hexadecimal (notes/assumptions/19.md). -/

namespace Sys2Proof.Machine

/-- One hexadecimal digit. -/
def hexDigit (n : Nat) : String :=
  (["0", "1", "2", "3", "4", "5", "6", "7", "8", "9", "A", "B", "C", "D", "E", "F"][n]?).getD "?"

/-- A byte as `0x` and two digits. -/
def byteText (b : Byte) : String := "0x" ++ hexDigit (b.toNat / 16) ++ hexDigit (b.toNat % 16)

/-- The digits of a natural number in decimal, the last `fuel` of them. -/
def decimalText (fuel n : Nat) : String :=
  match fuel with
  | 0 => ""
  | fuel + 1 => if n < 10 then hexDigit n else decimalText fuel (n / 10) ++ hexDigit (n % 10)

/-- A natural number in decimal; an operand, a length or a position of the block has at most 6 digits. -/
def natText (n : Nat) : String := decimalText 20 n

/-- The elements of a list, separated by commas. -/
def commaText : List String → String
  | [] => ""
  | [x] => x
  | x :: y :: rest => x ++ ", " ++ commaText (y :: rest)

/-- A byte list in brackets (R68). -/
def bytesText (l : List Byte) : String := "[" ++ commaText (l.map byteText) ++ "]"

/-- An operand (R57, R68). -/
def operandText : Operand → String
  | .off x => natText x.toNat
  | .len x => natText x.toNat
  | .v x => byteText x
  | .n x => byteText x
  | .data l => bytesText l

/-- The mnemonic of an instruction, as spec/opcode_table.json spells it. -/
def mnemonic : Instr → String
  | .bufRd _ => "BUF_RD"
  | .bufWr _ _ => "BUF_WR"
  | .bufRdRange _ _ => "BUF_RD_RANGE"
  | .bufWrRange _ _ => "BUF_WR_RANGE"
  | .sizeRd => "SIZE_RD"
  | .sizeWr _ => "SIZE_WR"
  | .payloadRd => "PAYLOAD_RD"
  | .payloadWr _ => "PAYLOAD_WR"
  | .csumRd => "CSUM_RD"
  | .csumCalc => "CSUM_CALC"
  | .csumStamp => "CSUM_STAMP"
  | .validate => "VALIDATE"
  | .encode => "ENCODE"
  | .decode => "DECODE"
  | .readFrame => "READ_FRAME"
  | .writeFrame => "WRITE_FRAME"
  | .wireSync => "WIRE_SYNC"
  | .wireEscaped _ => "WIRE_ESCAPED"
  | .wireLiteral _ => "WIRE_LITERAL"

/-- A command: its mnemonic, then its operands in the order of R59, separated by commas (R68). A wire symbol is written as
its mnemonic and its wire bytes; R68 has no syntax for one. -/
def instrText (i : Instr) : String :=
  match encode i with
  | .transaction ⟨_, []⟩ => mnemonic i
  | .transaction ⟨_, x :: rest⟩ => mnemonic i ++ " " ++ commaText ((x :: rest).map operandText)
  | .firstSymbol wire => mnemonic i ++ " " ++ bytesText wire
  | .symbol wire => mnemonic i ++ " " ++ bytesText wire

/-- The name of a status (R150). -/
def statusText : Status → String
  | .ok => "OK"
  | .outOfBounds => "OUT_OF_BOUNDS"
  | .payloadTooLarge => "PAYLOAD_TOO_LARGE"
  | .frameSyncError => "FRAME_SYNC_ERROR"
  | .unexpectedEndOfStream => "UNEXPECTED_END_OF_STREAM"
  | .checksumMismatch => "CHECKSUM_MISMATCH"
  | .sizeError => "SIZE_ERROR"
  | .ioError => "IO_ERROR"
  | .illegalCommand => "ILLEGAL_COMMAND"

/-- The rdata of a response, with a space before it where there is one. -/
def rdataText : RData → String
  | .none => ""
  | .byte b => " " ++ byteText b
  | .bytes l => " " ++ bytesText l
  | .bounds off n => " (" ++ natText off ++ ", " ++ natText n ++ ")"
  | .length n => " " ++ natText n
  | .position didx => " " ++ natText didx
  | .checksums stored computed => " (" ++ byteText stored ++ ", " ++ byteText computed ++ ")"
  | .atSource didx => " (SOURCE, " ++ natText didx ++ ")"
  | .atSink => " SINK"

/-- A response (R68). -/
def responseText (r : Response) : String := "-> " ++ statusText r.status ++ rdataText r.rdata

/-- A pseudo-command (R71). -/
def pseudoText : Pseudo → String
  | .rawRd => "RAW_RD"
  | .load data => "LOAD " ++ bytesText data
  | .pack data => "PACK " ++ bytesText data
  | .send data => "SEND " ++ bytesText data

/-- A program: one command a line, in the order in which the host issues them (R69). -/
def programText : List Instr → String
  | [] => ""
  | [i] => instrText i
  | i :: j :: rest => instrText i ++ "\n" ++ programText (j :: rest)

/-- An answer of the source, a byte or one of the two other answers (R11, R70). -/
def sourceAnswerText : SourceAnswer → String
  | .byte w => byteText w
  | .eof => "EOF"
  | .ioerr => "IOERR"

/-- The source's contents (R70). -/
def sourceText (l : List SourceAnswer) : String := "source: [" ++ commaText (l.map sourceAnswerText) ++ "]"

/-- A byte list the sink got (R70). -/
def sinkText (l : List Byte) : String := "sink: " ++ bytesText l

/-- A comment (R70). -/
def commentText (text : String) : String := "; " ++ text

end Sys2Proof.Machine
end

