-- ==== Sys2Proof/Tests/Slice0.lean ====
section
/-! SUPPORT. Tests on fixed values: ill-formed instructions refused, one word written out from the spec's encoding for every
instruction, steps of 95_test_vectors.md, and for every obligation with hypotheses a state that meets them. -/

namespace Sys2Proof.Tests

open Sys2Proof Sys2Proof.Machine

/-! ### Small states -/

/-- The reset state at CAP = 258, the capacity of the vectors (D42). -/
def s258 : State := State.resetOf ⟨258, by decide⟩

/-- The reset state at CAP = 6 (V-PK-10). -/
def s6 : State := State.resetOf ⟨6, by decide⟩

/-- The reset state at the smallest CAP (V-PK-12). -/
def s4 : State := State.resetOf ⟨4, by decide⟩

/-- The buffer of Scenario 1 (L1.1). -/
def scen1 : State := memWrite 0 [0xE0#8, 0xFF#8, 0x03#8, 0x01#8, 0x02#8, 0x05#8] s258

/-- The buffer of Scenario 2 (L1.2). -/
def scen2 : State := setByte 5 0x06#8 scen1

/-- A waiting decode: the command, the phase, the position, the bytes at offset 0 on, and the source's answers. -/
def decoding (c : WaitingCommand) (p : DPhase) (i : Nat) (l : List Byte) (src : List SourceAnswer) : State :=
  { memWrite 0 l s258 with port := .busy c, dphase := p, didx := i, source := src }

/-- WRITE_FRAME waiting for a sink that answers `a`. -/
def writing (a : List SinkAnswer) : State := { scen1 with port := .busy .writeFrame, sink := a }

/-- The last response of the state an instruction or a step leads to. -/
def answer : Result → Option Response
  | .next t => t.responses.getLast?
  | .fault _ => none
  | .refused _ => none

/-- The bytes from an offset on, and DPHASE, DIDX and PORT. -/
def view (off n : Nat) : Result → Option (List Byte × DPhase × Nat × Port)
  | .next t => some (memRead t off n, t.dphase, t.didx, t.port)
  | .fault _ => none
  | .refused _ => none

/-- Why an instruction is refused. -/
def refusal : Result → Option Refusal
  | .next _ => none
  | .fault _ => none
  | .refused r => some r

/-- The state an instruction or a step leads to, if any. -/
def after : Result → Option State
  | .next t => some t
  | .fault _ => none
  | .refused _ => none

/-! ### WellFormed (R57, R62) -/

theorem wellFormed_bufWrRange_of_length (off : Half) (data : List Byte) (h : data.length = 65536) :
    WellFormed (.bufWrRange off data) = false :=
  decide_eq_false (fun h' => by rw [dataFits, h] at h'; omega)

theorem test_wellFormed_refuses_long_range_data (off : Half) (b : Byte) :
    WellFormed (.bufWrRange off (List.replicate 65536 b)) = false :=
  wellFormed_bufWrRange_of_length off _ List.length_replicate

theorem wellFormed_payloadWr_of_length (data : List Byte) (h : data.length = 65536) :
    WellFormed (.payloadWr data) = false :=
  decide_eq_false (fun h' => by rw [dataFits, h] at h'; omega)

theorem test_wellFormed_refuses_long_payload (b : Byte) : WellFormed (.payloadWr (List.replicate 65536 b)) = false :=
  wellFormed_payloadWr_of_length _ List.length_replicate

theorem test_wellFormed_refuses_escape_as_literal : WellFormed (.wireLiteral 0xD0#8) = false := by decide

/-! ### Decoding: words written out from R59 and R62 -/

theorem test_decode_bufRd : decode (.transaction ⟨0b00000001#8, [.off 0x0101#16]⟩) = .instr (.bufRd 257#16) ∧
    decodeTableWord 8 0b00000001 = some (.bufRd 0#16) := by decide

theorem test_decode_bufWr : decode (.transaction ⟨0b00000010#8, [.off 0x0001#16, .v 0xFF#8]⟩) = .instr (.bufWr 1#16 255#8) ∧
    decodeTableWord 8 0b00000010 = some (.bufWr 0#16 0#8) := by decide

theorem test_decode_bufRdRange :
    decode (.transaction ⟨0b00000011#8, [.off 0#16, .len 6#16]⟩) = .instr (.bufRdRange 0#16 6#16) ∧
      decodeTableWord 8 0b00000011 = some (.bufRdRange 0#16 0#16) := by decide

theorem test_decode_bufWrRange :
    decode (.transaction ⟨0b00000100#8, [.off 6#16, .data [0xAA#8, 0xBB#8]]⟩) = .instr (.bufWrRange 6#16 [0xAA#8, 0xBB#8]) ∧
      decodeTableWord 8 0b00000100 = some (.bufWrRange 0#16 []) := by decide

theorem test_decode_sizeRd : decode (.transaction ⟨0b00010000#8, []⟩) = .instr .sizeRd ∧
    decodeTableWord 8 0b00010000 = some .sizeRd := by decide

theorem test_decode_sizeWr : decode (.transaction ⟨0b00010001#8, [.n 5#8]⟩) = .instr (.sizeWr 5#8) ∧
    decodeTableWord 8 0b00010001 = some (.sizeWr 0#8) := by decide

theorem test_decode_payloadRd : decode (.transaction ⟨0b00010010#8, []⟩) = .instr .payloadRd ∧
    decodeTableWord 8 0b00010010 = some .payloadRd := by decide

theorem test_decode_payloadWr :
    decode (.transaction ⟨0b00010011#8, [.data [0x01#8, 0x02#8]]⟩) = .instr (.payloadWr [0x01#8, 0x02#8]) ∧
      decodeTableWord 8 0b00010011 = some (.payloadWr []) := by decide

theorem test_decode_csumRd : decode (.transaction ⟨0b00100000#8, []⟩) = .instr .csumRd ∧
    decodeTableWord 8 0b00100000 = some .csumRd := by decide

theorem test_decode_csumCalc : decode (.transaction ⟨0b00100001#8, []⟩) = .instr .csumCalc ∧
    decodeTableWord 8 0b00100001 = some .csumCalc := by decide

theorem test_decode_csumStamp : decode (.transaction ⟨0b00100010#8, []⟩) = .instr .csumStamp ∧
    decodeTableWord 8 0b00100010 = some .csumStamp := by decide

theorem test_decode_validate : decode (.transaction ⟨0b00110000#8, []⟩) = .instr .validate ∧
    decodeTableWord 8 0b00110000 = some .validate := by decide

theorem test_decode_encode : decode (.transaction ⟨0b01000000#8, []⟩) = .instr .encode ∧
    decodeTableWord 8 0b01000000 = some .encode := by decide

theorem test_decode_decode : decode (.transaction ⟨0b01000001#8, []⟩) = .instr .decode ∧
    decodeTableWord 8 0b01000001 = some .decode := by decide

theorem test_decode_readFrame : decode (.transaction ⟨0b01010000#8, []⟩) = .instr .readFrame ∧
    decodeTableWord 8 0b01010000 = some .readFrame := by decide

theorem test_decode_writeFrame : decode (.transaction ⟨0b01010001#8, []⟩) = .instr .writeFrame ∧
    decodeTableWord 8 0b01010001 = some .writeFrame := by decide

theorem test_decode_wireSync : decode (.firstSymbol [0b11100000#8]) = .instr .wireSync ∧
    decodeTableWord 8 0b11100000 = some .wireSync := by decide

/-- Bit 0 of a table word is the least significant bit of the first byte: 0xD0 first, then 0xDF. -/
theorem test_decode_wireEscaped : decode (.symbol [0b11010000#8, 0b11011111#8]) = .instr (.wireEscaped 0xDF#8) ∧
    decodeTableWord 16 0b1101111111010000 = some (.wireEscaped 0xDF#8) := by decide

theorem test_decode_wireLiteral : decode (.symbol [0b11111111#8]) = .instr (.wireLiteral 0xFF#8) ∧
    decode (.symbol [0b11100000#8]) = .instr (.wireLiteral 0xE0#8) ∧
    decodeTableWord 8 0b00000000 = some (.wireLiteral 0x00#8) := by decide

theorem test_decode_rejects_by_name :
    decode (.transaction ⟨0x05#8, []⟩) = .reject (.unassignedCode 0x05#8) ∧
      decode (.transaction ⟨0x10#8, [.n 0#8]⟩) = .reject (.operandShape 0x10#8) ∧
      decode (.firstSymbol [0x05#8]) = .reject (.notSync 0x05#8) ∧
      decode (.symbol [0xD0#8]) = .reject .truncated ∧
      decode (.symbol [0x01#8, 0x02#8]) = .reject .trailing := by decide

/-! ### The written form (R68) -/

theorem test_text_of_commands : instrText (.bufWr 1#16 0xFF#8) = "BUF_WR 1, 0xFF" ∧
    instrText (.bufRdRange 0#16 6#16) = "BUF_RD_RANGE 0, 6" ∧
    instrText (.payloadWr [0x01#8, 0x02#8]) = "PAYLOAD_WR [0x01, 0x02]" ∧ instrText .writeFrame = "WRITE_FRAME" := by decide

theorem test_text_of_responses : responseText ⟨.ok, .byte 0x05#8⟩ = "-> OK 0x05" ∧
    responseText ⟨.checksumMismatch, .checksums 0x06#8 0x05#8⟩ = "-> CHECKSUM_MISMATCH (0x06, 0x05)" := by decide

theorem test_text_of_programs_and_streams :
    programText [.bufWr 1#16 0xFF#8, .writeFrame] = "BUF_WR 1, 0xFF\nWRITE_FRAME" ∧
      pseudoText (.pack [0xE0#8]) = "PACK [0xE0]" ∧
      sourceText [.byte 0xE0#8, .byte 0x01#8, .ioerr] = "source: [0xE0, 0x01, IOERR]" := by decide

/-! ### One step per instruction -/

/-- V-BV-1. -/
theorem test_bufRd_last_offset : answer (exec (.bufRd 257#16) s258) = some ⟨.ok, .byte 0x00#8⟩ := by decide

/-- V-BV-2. -/
theorem test_bufRd_at_cap : answer (exec (.bufRd 258#16) s258) = some ⟨.outOfBounds, .bounds 258 1⟩ := by decide

/-- V-BV-4. -/
theorem test_bufWr_size : view 1 3 (exec (.bufWr 2#16 0x07#8) s258) = some ([0x00#8, 0x07#8, 0x00#8], .idle, 0, .idle) := by
  decide

/-- V-BV-3. -/
theorem test_bufWr_far : answer (exec (.bufWr 65535#16 0x01#8) s258) = some ⟨.outOfBounds, .bounds 65535 1⟩ := by decide

/-- The example of R82. -/
theorem test_bufRdRange_order : answer (exec (.bufRdRange 1#16 3#16) scen1) =
    some ⟨.ok, .bytes [0xFF#8, 0x03#8, 0x01#8]⟩ := by decide

/-- V-BV-7. -/
theorem test_bufRdRange_no_wrap : answer (exec (.bufRdRange 65535#16 65535#16) s258) =
    some ⟨.outOfBounds, .bounds 65535 65535⟩ := by decide

/-- V-BV-9. -/
theorem test_bufWrRange_to_the_end :
    view 255 3 (exec (.bufWrRange 256#16 [0x01#8, 0x02#8]) s258) = some ([0x00#8, 0x01#8, 0x02#8], .idle, 0, .idle) := by
  decide

/-- V-BV-8. -/
theorem test_bufWrRange_all_or_nothing :
    view 256 2 (exec (.bufWrRange 256#16 [0x01#8, 0x02#8, 0x03#8]) s258) = some ([0x00#8, 0x00#8], .idle, 0, .idle) := by
  decide

/-- V-S1-2. -/
theorem test_sizeRd_scenario1 : answer (exec .sizeRd scen1) = some ⟨.ok, .byte 0x03#8⟩ := by decide

/-- V-PK-11. -/
theorem test_sizeWr_does_not_check : view 2 1 (exec (.sizeWr 0x04#8) s6) = some ([0x04#8], .idle, 0, .idle) := by decide

/-- V-S1-6. -/
theorem test_payloadRd_scenario1 : answer (exec .payloadRd scen1) = some ⟨.ok, .bytes [0x01#8, 0x02#8]⟩ := by decide

/-- V-PK-3. -/
theorem test_payloadRd_after_reset : answer (exec .payloadRd s258) = some ⟨.sizeError, .byte 0x00#8⟩ := by decide

/-- V-PK-10. -/
theorem test_payloadWr_at_the_limit :
    view 2 4 (exec (.payloadWr [0x01#8, 0x02#8]) s6) = some ([0x03#8, 0x01#8, 0x02#8, 0x00#8], .idle, 0, .idle) := by decide

/-- V-PK-12. -/
theorem test_payloadWr_too_large : answer (exec (.payloadWr [0x01#8]) s4) = some ⟨.payloadTooLarge, .length 1⟩ := by decide

/-- V-CK-9. -/
theorem test_csumRd_stale : answer (exec .csumRd scen2) = some ⟨.ok, .byte 0x06#8⟩ := by decide

/-- V-CK-3. -/
theorem test_csumCalc_wraps :
    answer (exec .csumCalc (memWrite 1 [0xFF#8, 0x03#8, 0xFF#8, 0xFF#8] s258)) = some ⟨.ok, .byte 0x00#8⟩ := by decide

/-- V-CK-9. -/
theorem test_csumStamp_scenario2 : view 0 6 (exec .csumStamp scen2) =
    some ([0xE0#8, 0xFF#8, 0x03#8, 0x01#8, 0x02#8, 0x05#8], .idle, 0, .idle) := by decide

/-- V-CK-7. -/
theorem test_csumStamp_after_reset : answer (exec .csumStamp s258) = some ⟨.sizeError, .byte 0x00#8⟩ := by decide

/-- V-S1-3 and V-S2-1. -/
theorem test_validate_scenarios : answer (exec .validate scen1) = some ⟨.ok, .byte 0x01#8⟩ ∧
    answer (exec .validate scen2) = some ⟨.ok, .byte 0x00#8⟩ := by decide

/-- V-EN-2. -/
theorem test_encode_escapes : answer (exec .encode (memWrite 1 [0xD0#8, 0x03#8, 0xE0#8, 0x10#8, 0xC3#8] s258)) =
    some ⟨.ok, .bytes [0xE0#8, 0xD0#8, 0xCF#8, 0x03#8, 0xD0#8, 0xDF#8, 0x10#8, 0xC3#8]⟩ := by decide

/-- V-EN-4. -/
theorem test_encode_after_reset : answer (exec .encode s258) = some ⟨.sizeError, .byte 0x00#8⟩ := by decide

/-- The acceptance step of R125. -/
theorem test_decode_starts : view 0 1 (exec .decode scen1) = some ([0xE0#8], .sync, 0, .busy .decode) := by decide

/-- The acceptance step of R140. -/
theorem test_readFrame_starts : view 0 1 (exec .readFrame s258) = some ([0x00#8], .sync, 0, .busy .readFrame) := by decide

/-- V-WF-4, before the sink answers. -/
theorem test_writeFrame_hands_over :
    (after (exec .writeFrame (memWrite 1 [0x01#8, 0x02#8, 0xDD#8] s258))).map (fun t => (t.sinkGot, byteAt t 4)) =
      some ([[0xE0#8, 0x01#8, 0x02#8, 0xDD#8, 0xD0#8, 0xDF#8]], 0xE0#8) := by decide

/-- V-WF-3. -/
theorem test_writeFrame_after_reset : answer (exec .writeFrame s258) = some ⟨.sizeError, .byte 0x00#8⟩ := by decide

/-- V-DEC-5, its first step. -/
theorem test_wireSync_accepted :
    view 0 1 (exec .wireSync (decoding .decode .sync 0 [] [])) = some ([0xE0#8], .normal, 1, .busy .decode) := by decide

/-- The wrap of V-DEC-9. -/
theorem test_wireEscaped_wraps : view 0 4 (exec (.wireEscaped 0xFF#8) (decoding .decode .normal 3 [0xE0#8, 0x01#8, 0x02#8, 0x77#8] [])) =
    some ([0xE0#8, 0x01#8, 0x02#8, 0x00#8], .normal, 4, .busy .decode) := by decide

/-- V-DEC-10: the operand 0xD0 is not a marker. -/
theorem test_wireEscaped_operand_is_no_marker :
    view 3 1 (exec (.wireEscaped 0xD0#8) (decoding .decode .escSeen 3 [0xE0#8, 0x01#8, 0x02#8] [])) =
      some ([0xD1#8], .normal, 4, .busy .decode) := by decide

/-- V-DEC-7: the size is checked as it arrives. -/
theorem test_wireLiteral_bad_size :
    answer (exec (.wireLiteral 0x00#8) (decoding .decode .normal 2 [0xE0#8, 0x01#8] [])) =
      some ⟨.sizeError, .byte 0x00#8⟩ := by decide

/-- V-S2-2, its completing step. -/
theorem test_wireLiteral_completes_readFrame :
    answer (exec (.wireLiteral 0x06#8) (decoding .readFrame .normal 5 [0xE0#8, 0xFF#8, 0x03#8, 0x01#8, 0x02#8] [])) =
      some ⟨.checksumMismatch, .checksums 0x06#8 0x05#8⟩ := by decide

/-! ### Steps of the machine -/

/-- V-EX-3: the block answers an unassigned code. -/
theorem test_step_illegal_command :
    answer (step { s258 with host := [.command ⟨0x05#8, []⟩] }) = some ⟨.illegalCommand, .byte 0x05#8⟩ := by decide

/-- V-DEC-3: a first byte that is no sync is consumed, and nothing is written. -/
theorem test_step_sync_error :
    (after (step (decoding .decode .sync 0 [] [.byte 0x05#8, .byte 0xE0#8, .byte 0x01#8]))).map
        (fun t => (t.responses, t.buf, t.source)) =
      some ([⟨.frameSyncError, .byte 0x05#8⟩], [], [.byte 0xE0#8, .byte 0x01#8]) := by decide

/-- V-DEC-13: an I/O error of the source. -/
theorem test_step_source_error :
    answer (step (decoding .decode .normal 2 [0xE0#8, 0x01#8] [.ioerr, .byte 0x05#8])) =
      some ⟨.ioError, .atSource 2⟩ := by decide

/-- V-WF-2: the sink fails. -/
theorem test_step_sink_error : answer (step (writing [.ioerr])) = some ⟨.ioError, .atSink⟩ := by decide

/-- V-RS-2: RESET ends a decode without a response. -/
theorem test_step_reset :
    view 0 2 (step { decoding .readFrame .normal 2 [0xE0#8, 0x01#8] [] with host := [.reset] }) =
      some ([0x00#8, 0x00#8], .idle, 0, .idle) := by decide

/-- V-RS-3: the wait is a hang. -/
theorem test_step_hangs :
    after (step (decoding .decode .sync 0 [] [])) = some (decoding .decode .sync 0 [] []) := by decide

/-- R175 and R55: a command before the first RESET, and one while another is outstanding, have no meaning. -/
theorem test_refusals : refusal (exec .sizeRd { s258 with resetDone := false }) = some .beforeFirstReset ∧
    refusal (exec .sizeRd (writing [])) = some .commandWhileBusy ∧
    refusal (exec .wireSync s258) = some .decoderNotWaiting ∧
    refusal (step { s258 with host := [.command ⟨0x10#8, [.n 0#8]⟩] }) = some (.operandShape 0x10#8) := by decide

/-- The table word of SIZE_RD runs as the first instruction after reset. -/
theorem test_withFetchWord_sizeRd :
    answer (step (State.reset.withFetchWord 8 0x10)) = some ⟨.ok, .byte 0x00#8⟩ := by decide

/-- The table word of WIRE_ESCAPED with e = 0xDF stores 0xE0. -/
theorem test_withFetchWord_wireEscaped :
    view 1 1 (step (s258.withFetchWord 16 0xDFD0)) = some ([0xE0#8], .normal, 2, .busy .decode) := by decide

/-! ### States that meet the hypotheses of the obligations -/

theorem s258_ready : Ready s258 := ⟨rfl, rfl⟩

theorem s6_ready : Ready s6 := ⟨rfl, rfl⟩

theorem scen1_ready : Ready scen1 := ⟨rfl, rfl⟩

theorem scen2_ready : Ready scen2 := ⟨rfl, rfl⟩

/-- A host with no move left waits. -/
theorem hostWaits_of_nil {s : State} (h : s.host = []) : HostWaits s := by
  intro m rest e
  rw [h] at e
  cases e

/-- A host that wants to issue a command waits while another is in progress. -/
theorem hostWaits_of_command {s : State} {t : Transaction} {rest : List HostMove} (h : s.host = .command t :: rest) :
    HostWaits s := by
  intro m l e
  rw [h] at e
  cases e
  exact ⟨by simp, by simp⟩

/-- The last offset below CAP and the first one at it. -/
theorem test_witness_BufRdAnswersByteWithinBounds :
    Ready s258 ∧ (257#16).toNat + 1 ≤ s258.cap.val ∧ s258.cap.val < (258#16).toNat + 1 := ⟨s258_ready, by decide, by decide⟩

theorem test_witness_BufWrWritesOneByteWithinBounds :
    Ready s258 ∧ (257#16).toNat + 1 ≤ s258.cap.val ∧ s258.cap.val < (258#16).toNat + 1 := ⟨s258_ready, by decide, by decide⟩

/-- The empty range at CAP is in range, and one past it is not (V-BV-5, V-BV-6). -/
theorem test_witness_BufRdRangeAnswersWholeRange :
    Ready s258 ∧ (258#16).toNat + (0#16).toNat ≤ s258.cap.val ∧ s258.cap.val < (259#16).toNat + (0#16).toNat ∧
      (255#16).toNat + (3#16).toNat ≤ s258.cap.val := ⟨s258_ready, by decide, by decide, by decide⟩

theorem test_witness_BufWrRangeIsAllOrNothing :
    Ready s258 ∧ [0x01#8, 0x02#8].length ≤ 65535 ∧ (256#16).toNat + [0x01#8, 0x02#8].length ≤ s258.cap.val ∧
      s258.cap.val < (256#16).toNat + [0x01#8, 0x02#8, 0x03#8].length :=
  ⟨s258_ready, by decide, by decide, by decide⟩

theorem test_witness_RangeCommandsAgreeWithSingleByteCommands :
    Ready s258 ∧ (256#16).toNat + ([0x02#8].length + 1) ≤ s258.cap.val ∧
      (255#16).toNat + (3#16).toNat ≤ s258.cap.val ∧ (2#16).toNat < (3#16).toNat :=
  ⟨s258_ready, by decide, by decide, by decide⟩

theorem test_witness_SizeRdAnswersSizeField : Ready scen1 := scen1_ready

theorem test_witness_SizeWrWritesSizeField : Ready scen1 := scen1_ready

/-- CAP = 6 has MAX_SIZE = 3: the sizes 1 and 3 are legal, 0 and 4 are not. -/
theorem test_witness_sizes : Ready (setByte 2 0x01#8 s6) ∧ sizeOK (setByte 2 0x01#8 s6) (byteAt (setByte 2 0x01#8 s6) 2) ∧
    sizeOK (setByte 2 0x03#8 s6) (byteAt (setByte 2 0x03#8 s6) 2) ∧ ¬ sizeOK s6 (byteAt s6 2) ∧
    ¬ sizeOK (setByte 2 0x04#8 s6) (byteAt (setByte 2 0x04#8 s6) 2) :=
  ⟨⟨rfl, rfl⟩, by decide, by decide, by decide, by decide⟩

theorem test_witness_PayloadRdAnswersPayload :
    Ready s6 ∧ ¬ sizeOK s6 (byteAt s6 2) ∧ Ready scen1 ∧ sizeOK scen1 (byteAt scen1 2) :=
  ⟨s6_ready, by decide, scen1_ready, by decide⟩

/-- CAP = 6 has MAX_PAYLOAD = 2 (V-PK-10). -/
theorem test_witness_PayloadWrWritesPayloadAndSize :
    Ready s6 ∧ [0x01#8, 0x02#8].length ≤ 65535 ∧ [0x01#8, 0x02#8].length ≤ min 255 (s6.cap.val - 3) - 1 ∧
      min 255 (s6.cap.val - 3) - 1 < [0x01#8, 0x02#8, 0x03#8].length := ⟨s6_ready, by decide, by decide, by decide⟩

theorem test_witness_SizeRdAfterPayloadWrIsLengthPlusOne : Ready s6 ∧ [0x01#8, 0x02#8].length ≤ maxPayload s6 :=
  ⟨s6_ready, by decide⟩

theorem test_witness_LayoutCommandsRaiseSizeError :
    Ready (setByte 2 0x04#8 s6) ∧ ¬ sizeOK (setByte 2 0x04#8 s6) (byteAt (setByte 2 0x04#8 s6) 2) ∧ Ready s258 ∧
      ¬ sizeOK s258 (byteAt s258 2) := ⟨⟨rfl, rfl⟩, by decide, s258_ready, by decide⟩

/-- Scenario 1 passes the test, Scenario 2 fails on the checksum, a reset buffer on the size. -/
theorem test_witness_ValidateAnswersSizeAndChecksumTest :
    Ready scen1 ∧ (sizeOK scen1 (byteAt scen1 2) ∧
        byteAt scen1 (2 + (byteAt scen1 2).toNat) = frameSum scen1 (byteAt scen1 2).toNat) ∧
      Ready scen2 ∧ byteAt scen2 (2 + (byteAt scen2 2).toNat) ≠ frameSum scen2 (byteAt scen2 2).toNat ∧
      Ready s258 ∧ ¬ sizeOK s258 (byteAt s258 2) :=
  ⟨scen1_ready, by decide, scen2_ready, by decide, s258_ready, by decide⟩

theorem test_witness_CsumRdAnswersStoredChecksum :
    Ready scen2 ∧ sizeOK scen2 (byteAt scen2 2) ∧ Ready s258 ∧ ¬ sizeOK s258 (byteAt s258 2) :=
  ⟨scen2_ready, by decide, s258_ready, by decide⟩

theorem test_witness_CsumCalcAnswersSum :
    Ready scen1 ∧ sizeOK scen1 (byteAt scen1 2) ∧ Ready s258 ∧ ¬ sizeOK s258 (byteAt s258 2) :=
  ⟨scen1_ready, by decide, s258_ready, by decide⟩

theorem test_witness_CsumStampStoresSum :
    Ready scen2 ∧ sizeOK scen2 (byteAt scen2 2) ∧ Ready s258 ∧ ¬ sizeOK s258 (byteAt s258 2) :=
  ⟨scen2_ready, by decide, s258_ready, by decide⟩

theorem test_witness_StampedFrameIsValid : Ready scen2 ∧ sizeOK scen2 (byteAt scen2 2) := ⟨scen2_ready, by decide⟩

/-- The first and the last covered offset of Scenario 1, with another byte. -/
theorem test_witness_OneChangedByteChangesSum :
    1 ≤ 1 ∧ 1 ≤ 1 + 3 ∧ 0x00#8 ≠ byteAt scen1 1 ∧ 4 ≤ 1 + 3 ∧ 0x00#8 ≠ byteAt scen1 4 := by decide

theorem test_witness_PermutedBytesKeepSum :
    ((List.range 2).map (fun k => byteAt (memWrite 1 [0x02#8, 0x01#8] s258) (1 + k))).Perm
      ((List.range 2).map (fun k => byteAt (memWrite 1 [0x01#8, 0x02#8] s258) (1 + k))) := by decide

theorem test_witness_UnescapeUndoesEscape : (0xD0#8 = 0xE0#8 ∨ 0xD0#8 = 0xD0#8) ∧ 0xDF#8 ≠ 0xE0#8 ∧ 0xDF#8 ≠ 0xD0#8 := by
  decide

/-- A frame whose payload is 0xE0 has an escape prefix at index 2 after the sync (V-S3-1). -/
theorem test_witness_WireImageIsCanonical :
    (wireImage (memWrite 1 [0x01#8, 0x02#8, 0xE0#8, 0xE3#8] s258) 2).tail[2]? = some 0xD0#8 := by decide

theorem test_witness_EncodeAnswersWireImage :
    Ready scen1 ∧ sizeOK scen1 (byteAt scen1 2) ∧ Ready s258 ∧ ¬ sizeOK s258 (byteAt s258 2) :=
  ⟨scen1_ready, by decide, s258_ready, by decide⟩

/-- Two buffers that differ at offset 0 and above the frame. -/
theorem test_witness_EncodeReadsTheFrameAlone :
    Ready scen1 ∧ Ready (setByte 6 0xAA#8 (setByte 0 0x55#8 scen1)) ∧
      scen1.cap = (setByte 6 0xAA#8 (setByte 0 0x55#8 scen1)).cap ∧
      scen1.responses = (setByte 6 0xAA#8 (setByte 0 0x55#8 scen1)).responses ∧
      byteAt scen1 2 = byteAt (setByte 6 0xAA#8 (setByte 0 0x55#8 scen1)) 2 ∧
      ∀ i, 1 ≤ i → i ≤ 2 + (byteAt scen1 2).toNat →
        byteAt scen1 i = byteAt (setByte 6 0xAA#8 (setByte 0 0x55#8 scen1)) i := by
  refine ⟨⟨rfl, rfl⟩, ⟨rfl, rfl⟩, rfl, rfl, by decide, ?_⟩
  intro i h1 h2
  have h3 : i ≤ 5 := h2
  match i, h1, h3 with
  | 1, _, _ => decide
  | 2, _, _ => decide
  | 3, _, _ => decide
  | 4, _, _ => decide
  | 5, _, _ => decide

theorem test_witness_DecodeCommandsStartTheDecoder : Ready scen1 := scen1_ready

theorem test_witness_SyncStepAcceptsOnlyTheSyncMarker :
    awaitsSource (decoding .decode .sync 0 [] [.byte 0x05#8]) = true ∧
      (decoding .decode .sync 0 [] [.byte 0x05#8]).dphase = .sync ∧
      HostWaits (decoding .decode .sync 0 [] [.byte 0x05#8]) ∧
      (decoding .decode .sync 0 [] [.byte 0x05#8]).source = .byte 0x05#8 :: [] ∧ 0x05#8 ≠ 0xE0#8 :=
  ⟨by decide, rfl, hostWaits_of_nil rfl, rfl, by decide⟩

/-- An address byte, a bad size byte, a payload byte, and the byte that completes the frame. -/
theorem test_witness_LiteralStoresItsByte :
    awaitsSource (decoding .decode .normal 1 [0xE0#8] []) = true ∧
      (decoding .decode .normal 1 [0xE0#8] []).dphase = .normal ∧
      (decoding .decode .normal 1 [0xE0#8] []).didx < (decoding .decode .normal 1 [0xE0#8] []).cap.val ∧
      0xE0#8 ≠ 0xD0#8 ∧ ¬ sizeOK (decoding .decode .normal 2 [0xE0#8, 0x01#8] []) 0x00#8 ∧
      (decoding .decode .normal 4 [0xE0#8, 0x01#8, 0x02#8, 0x07#8] []).didx =
        2 + (byteAt (decoding .decode .normal 4 [0xE0#8, 0x01#8, 0x02#8, 0x07#8] []) 2).toNat := by decide

/-- After the escape byte, and before it. -/
theorem test_witness_EscapedStoresOperandPlusOne :
    awaitsSource (decoding .decode .escSeen 3 [0xE0#8, 0x01#8, 0x02#8] []) = true ∧
      (decoding .decode .escSeen 3 [0xE0#8, 0x01#8, 0x02#8] []).dphase = .escSeen ∧
      (decoding .decode .escSeen 3 [0xE0#8, 0x01#8, 0x02#8] []).didx < 258 ∧
      awaitsSource (decoding .readFrame .normal 1 [0xE0#8] []) = true ∧
      (decoding .readFrame .normal 1 [0xE0#8] []).dphase = .normal := by decide

theorem test_witness_EscapeByteThenOperandRunTheSymbol :
    awaitsSource (decoding .decode .normal 1 [0xE0#8] [.byte 0xD0#8, .byte 0xDF#8]) = true ∧
      (decoding .decode .normal 1 [0xE0#8] [.byte 0xD0#8, .byte 0xDF#8]).dphase = .normal ∧
      HostWaits (decoding .decode .normal 1 [0xE0#8] [.byte 0xD0#8, .byte 0xDF#8]) ∧
      (decoding .decode .normal 1 [0xE0#8] [.byte 0xD0#8, .byte 0xDF#8]).source = .byte 0xD0#8 :: .byte 0xDF#8 :: [] :=
  ⟨by decide, rfl, hostWaits_of_nil rfl, rfl⟩

theorem test_witness_EndOfStreamAndSourceErrorEndTheDecode :
    awaitsSource (decoding .decode .sync 0 [] [.eof]) = true ∧ HostWaits (decoding .decode .sync 0 [] [.eof]) ∧
      (decoding .decode .sync 0 [] [.eof]).source = .eof :: [] ∧
      awaitsSource (decoding .decode .escSeen 3 [0xE0#8, 0x01#8, 0x02#8] [.ioerr]) = true ∧
      HostWaits (decoding .decode .escSeen 3 [0xE0#8, 0x01#8, 0x02#8] [.ioerr]) ∧
      (decoding .decode .escSeen 3 [0xE0#8, 0x01#8, 0x02#8] [.ioerr]).source = .ioerr :: [] :=
  ⟨by decide, hostWaits_of_nil rfl, rfl, by decide, hostWaits_of_nil rfl, rfl⟩

theorem test_witness_DecodeStepStoresAtMostOneByte :
    awaitsSource (decoding .decode .sync 0 [] [.byte 0xE0#8]) = true ∧
      HostWaits (decoding .decode .sync 0 [] [.byte 0xE0#8]) ∧
      (∃ t, step (decoding .decode .sync 0 [] [.byte 0xE0#8]) = .next t ∧ byteAt t 0 = 0xE0#8) ∧
      awaitsSource (decoding .decode .normal 1 [0xE0#8] [.byte 0x07#8]) = true ∧
      HostWaits (decoding .decode .normal 1 [0xE0#8] [.byte 0x07#8]) ∧
      ∃ t, step (decoding .decode .normal 1 [0xE0#8] [.byte 0x07#8]) = .next t ∧ byteAt t 1 = 0x07#8 :=
  ⟨by decide, hostWaits_of_nil rfl, ⟨_, rfl, by decide⟩, by decide, hostWaits_of_nil rfl, _, rfl, by decide⟩

/-- The reading block: a command for it and Scenario 1's wire bytes, one byte of the next frame after them. -/
def reading (code : Byte) : State :=
  { s258 with
    host := [.command ⟨code, []⟩]
    source := (wireImage scen1 3).map .byte ++ [.byte 0x99#8] }

theorem test_witness_DecodeReadsBackAWireImage :
    Ready (reading 0x41#8) ∧ (byteAt scen1 2).toNat = 3 ∧ 1 ≤ 3 ∧ 3 ≤ maxSize (reading 0x41#8) ∧
      (reading 0x41#8).host = [.command ⟨0x41#8, []⟩] ∧
      (reading 0x41#8).source = (wireImage scen1 3).map .byte ++ [.byte 0x99#8] :=
  ⟨⟨rfl, rfl⟩, by decide, by decide, by decide, rfl, rfl⟩

theorem test_witness_WriteFrameStampsAndHandsOver : Ready scen2 ∧ sizeOK scen2 (byteAt scen2 2) := ⟨scen2_ready, by decide⟩

theorem test_witness_SinkAnswerEndsWriteFrame :
    awaitsSink (writing [.ok]) = true ∧ HostWaits (writing [.ok]) ∧ (writing [.ok]).sink = .ok :: [] ∧
      awaitsSink (writing [.ioerr]) = true ∧ HostWaits (writing [.ioerr]) ∧ (writing [.ioerr]).sink = .ioerr :: [] :=
  ⟨by decide, hostWaits_of_nil rfl, rfl, by decide, hostWaits_of_nil rfl, rfl⟩

theorem test_witness_FreshChecksumIsRewrittenUnchanged :
    Ready scen1 ∧ sizeOK scen1 (byteAt scen1 2) ∧
      byteAt scen1 (2 + (byteAt scen1 2).toNat) = frameSum scen1 (byteAt scen1 2).toNat :=
  ⟨scen1_ready, by decide, by decide⟩

/-- A READ_FRAME one wire byte short of Scenario 1's or Scenario 2's frame. -/
def lastByte (w : Byte) : State :=
  decoding .readFrame .normal 5 [0xE0#8, 0xFF#8, 0x03#8, 0x01#8, 0x02#8] [.byte w]

theorem lastByte_inv (w : Byte) : Inv (lastByte w) := by
  have h : 5 ≤ 2 + maxSize (lastByte w) := by show 5 ≤ 2 + 255; omega
  have hz : sizeOK (lastByte w) (sizeField (lastByte w)) := by
    show 1 ≤ 3 ∧ 3 ≤ 255
    omega
  refine ⟨⟨?_, ?_⟩, ?_, fun _ => ⟨⟨.inr rfl, rfl, ?_, h, fun _ => ⟨hz, ?_⟩⟩, fun e => ?_⟩⟩
  · exact (by decide : (lastByte 0x00#8).buf.Pairwise (fun c d => c.1 < d.1))
  · exact (by decide : ∀ c ∈ (lastByte 0x00#8).buf, c.2 ≠ Memory.unlisted)
  · exact (by decide : ∀ c ∈ (lastByte 0x00#8).buf, c.1 < 258)
  · show 1 ≤ 5; omega
  · show 5 ≤ 2 + 3; omega
  · cases e

theorem test_witness_ReadFrameVerdictIsValidateVerdict :
    Inv (lastByte 0x05#8) ∧ HostWaits (lastByte 0x05#8) ∧ (lastByte 0x05#8).resetDone = true ∧
      (lastByte 0x05#8).port = .busy .readFrame ∧
      (∃ t, step (lastByte 0x05#8) = .next t ∧ t.responses = (lastByte 0x05#8).responses ++ [⟨.ok, .none⟩]) ∧
      Inv (lastByte 0x06#8) ∧ HostWaits (lastByte 0x06#8) ∧
      ∃ t, step (lastByte 0x06#8) = .next t ∧
        t.responses = (lastByte 0x06#8).responses ++ [⟨.checksumMismatch, .checksums 0x06#8 0x05#8⟩] :=
  ⟨lastByte_inv _, hostWaits_of_nil rfl, rfl, rfl, ⟨_, rfl, by decide⟩, lastByte_inv _, hostWaits_of_nil rfl, _, rfl,
    by decide⟩

theorem test_witness_ReadFrameReadsWhatWriteFrameWrote :
    Ready scen1 ∧ sizeOK scen1 (byteAt scen1 2) ∧
      (∃ t, exec .writeFrame scen1 = .next t ∧ t.sinkGot = scen1.sinkGot ++ [wireImage scen1 3]) ∧
      Ready (reading 0x50#8) ∧ (byteAt scen1 2).toNat ≤ maxSize (reading 0x50#8) ∧
      (reading 0x50#8).host = [.command ⟨0x50#8, []⟩] ∧
      (reading 0x50#8).source = (wireImage scen1 3).map .byte ++ [.byte 0x99#8] :=
  ⟨scen1_ready, by decide, ⟨_, rfl, by decide⟩, ⟨rfl, rfl⟩, by decide, rfl, rfl⟩

/-- The lowest and the highest unassigned code. -/
theorem test_witness_UnassignedCodeIsIllegalCommand :
    Ready { s258 with host := [.command ⟨0x00#8, [.n 0#8]⟩] } ∧
      0x00#8 ∉ [0x01#8, 0x02#8, 0x03#8, 0x04#8, 0x10#8, 0x11#8, 0x12#8, 0x13#8, 0x20#8, 0x21#8, 0x22#8, 0x30#8,
        0x40#8, 0x41#8, 0x50#8, 0x51#8] ∧
      0xFF#8 ∉ [0x01#8, 0x02#8, 0x03#8, 0x04#8, 0x10#8, 0x11#8, 0x12#8, 0x13#8, 0x20#8, 0x21#8, 0x22#8, 0x30#8,
        0x40#8, 0x41#8, 0x50#8, 0x51#8] := ⟨⟨rfl, rfl⟩, by decide, by decide⟩

theorem test_witness_NoCommandBeforeTheFirstReset :
    ({ s258 with resetDone := false } : State).resetDone = false ∧
      encode .sizeRd = .transaction ⟨0x10#8, []⟩ := ⟨rfl, rfl⟩

theorem test_witness_ResetRestoresEveryItem :
    ({ decoding .readFrame .normal 2 [0xE0#8, 0x01#8] [] with host := [.reset, .reset] } : State).host =
        .reset :: [.reset] ∧
      ({ writing [] with host := [.reset, .command ⟨0x10#8, []⟩] } : State).host =
        .reset :: [.command ⟨0x10#8, []⟩] ∧
      awaitsSource { writing [] with host := [.reset, .command ⟨0x10#8, []⟩] } = false := by decide

theorem test_witness_ResetEndsACommandWithoutResponse :
    ({ decoding .readFrame .normal 2 [0xE0#8, 0x01#8] [.byte 0x03#8] with host := [.reset] } : State).host =
        .reset :: [] ∧
      awaitsSource { decoding .readFrame .normal 2 [0xE0#8, 0x01#8] [.byte 0x03#8] with host := [.reset] } = true ∧
      awaitsSource { writing [] with host := [.reset] } = false := by decide

theorem test_witness_SilenceHangsTheCommand :
    HostWaits (decoding .decode .sync 0 [] []) ∧ awaitsSource (decoding .decode .sync 0 [] []) = true ∧
      (decoding .decode .sync 0 [] []).source = [] ∧ HostWaits (writing []) ∧ awaitsSink (writing []) = true ∧
      (writing []).sink = [] := ⟨hostWaits_of_nil rfl, by decide, rfl, hostWaits_of_nil rfl, by decide, rfl⟩

theorem test_witness_CommandWaitsForTheResponse :
    ({ writing [.ok] with host := [.command ⟨0x10#8, []⟩] } : State).resetDone = true ∧
      ({ writing [.ok] with host := [.command ⟨0x10#8, []⟩] } : State).port ≠ .idle ∧
      ∃ t, step { writing [.ok] with host := [.command ⟨0x10#8, []⟩] } = .next t ∧ t.port = .idle :=
  ⟨rfl, by decide, _, rfl, rfl⟩

theorem test_witness_OnlyWaitingCommandsStayBusy :
    encode .sizeRd = .transaction ⟨0x10#8, []⟩ ∧ (∃ t, exec .sizeRd s258 = .next t ∧ t.port = .idle) ∧
      encode .decode = .transaction ⟨0x41#8, []⟩ ∧ ∃ t, exec .decode s258 = .next t ∧ t.responses = s258.responses :=
  ⟨rfl, ⟨_, rfl, rfl⟩, rfl, _, rfl, rfl⟩

theorem test_witness_OnlyWriteFrameUsesTheSink : ∃ t, exec .encode scen1 = .next t ∧ t.sinkGot = scen1.sinkGot :=
  ⟨_, rfl, rfl⟩

/-- The smallest and the largest legal size at CAP = 258. -/
theorem test_witness_LegalFramesFitTheBuffer : sizeOK s258 0x01#8 ∧ sizeOK s258 0xFF#8 := by decide

/-- CAP = 6: two bytes fit, three do not. -/
theorem test_witness_PackBuildsAValidFrameOrStops :
    Ready { s6 with host := pseudoMoves s6.cap (.pack [0x01#8, 0x02#8]) } ∧ [0x01#8, 0x02#8].length ≤ 65535 ∧
      [0x01#8, 0x02#8].length ≤ maxPayload { s6 with host := pseudoMoves s6.cap (.pack [0x01#8, 0x02#8]) } ∧
      Ready { s6 with host := pseudoMoves s6.cap (.pack [0x01#8, 0x02#8, 0x03#8]) } ∧
      maxPayload { s6 with host := pseudoMoves s6.cap (.pack [0x01#8, 0x02#8, 0x03#8]) } <
        [0x01#8, 0x02#8, 0x03#8].length :=
  ⟨⟨rfl, rfl⟩, by decide, by decide, ⟨rfl, rfl⟩, by decide⟩

theorem test_witness_StepRunsTheDecodedCommand :
    Ready { s258 with host := [.command ⟨0x10#8, []⟩] } ∧ decode (.transaction ⟨0x10#8, []⟩) = .instr .sizeRd :=
  ⟨⟨rfl, rfl⟩, by decide⟩

/-- The source's answer goes to the decode in progress while the host waits to issue its next command. -/
theorem test_witness_StepRunsTheCompletedWireSymbol :
    awaitsSource (lastByte 0x05#8) = true ∧
      HostWaits { lastByte 0x05#8 with host := [.command ⟨0x30#8, []⟩] } ∧
      (lastByte 0x05#8).source = .byte 0x05#8 :: [] ∧
      readWireByte (wirePlace (lastByte 0x05#8).dphase) 0x05#8 = .symbol (.wireLiteral 0x05#8) :=
  ⟨by decide, hostWaits_of_command rfl, rfl, by decide⟩

theorem test_witness_DecodeAndEncodeAgree :
    WellFormed (.bufWrRange 0#16 [0x01#8]) = true ∧ decode (.symbol [0xD0#8, 0xDF#8]) = .instr (.wireEscaped 0xDF#8) := by
  decide

theorem test_witness_StepKeepsTheInvariant :
    Inv (lastByte 0x05#8) ∧ ∃ t, step (lastByte 0x05#8) = .next t ∧ t.port = .idle :=
  ⟨lastByte_inv _, _, rfl, by decide⟩

theorem test_witness_NoStepFaultsUnderTheInvariant : Inv (lastByte 0x05#8) := lastByte_inv _

theorem test_witness_NoStepChangesTheCapacity : ∃ t, step { writing [] with host := [.reset] } = .next t := ⟨_, rfl⟩

theorem test_witness_StepTakesAtMostOneSourceAnswer :
    ∃ t, step (lastByte 0x05#8) = .next t ∧ (lastByte 0x05#8).source = .byte 0x05#8 :: t.source := ⟨_, rfl, by decide⟩

theorem test_witness_StepGivesAtMostOneResponse :
    ∃ t, step (lastByte 0x05#8) = .next t ∧ t.responses = [⟨.ok, .none⟩] := ⟨_, rfl, by decide⟩

end Sys2Proof.Tests
end

section
/-! The scope rules of a step (00_scope.md R11, R13; 30_encoding.md R55; 43_transcoder.md R124): the block's own work never
touches the outside agents' answers and the responses so far, and it gives at most one response. -/

namespace Sys2Proof.Machine

variable {s t u : State} {r : Result}

/-! ### What the block's own work leaves alone -/

/-- What no update of the buffer, the decoder or the port touches: CAP and the fact of the first RESET, the moves and answers
still to come, and the responses given so far. -/
structure KeepsAgents (s t : State) : Prop where
  block : SameBlock s t
  host : t.host = s.host
  source : t.source = s.source
  sink : t.sink = s.sink
  responses : t.responses = s.responses

theorem KeepsAgents.refl (s : State) : KeepsAgents s s := ⟨⟨rfl, rfl⟩, rfl, rfl, rfl, rfl⟩

theorem KeepsAgents.setByte (h : KeepsAgents s t) (i : Nat) (v : Byte) : KeepsAgents s (setByte i v t) :=
  ⟨h.block, h.host, h.source, h.sink, h.responses⟩

theorem KeepsAgents.memWrite (h : KeepsAgents s t) (off : Nat) (data : List Byte) :
    KeepsAgents s (memWrite off data t) := ⟨h.block, h.host, h.source, h.sink, h.responses⟩

theorem KeepsAgents.setDecoder (h : KeepsAgents s t) (p : DPhase) (i : Nat) : KeepsAgents s (setDecoder p i t) :=
  ⟨h.block, h.host, h.source, h.sink, h.responses⟩

theorem KeepsAgents.setBusy (h : KeepsAgents s t) (c : WaitingCommand) : KeepsAgents s (setBusy c t) :=
  ⟨h.block, h.host, h.source, h.sink, h.responses⟩

theorem KeepsAgents.handToSink (h : KeepsAgents s t) (l : List Byte) : KeepsAgents s (handToSink l t) :=
  ⟨h.block, h.host, h.source, h.sink, h.responses⟩

theorem KeepsAgents.endDecode (h : KeepsAgents s t) : KeepsAgents s (endDecode t) := h.setDecoder .idle 0

/-! ### At most one response -/

/-- From `s` the block has done work of its own and then either responded once or not at all. -/
def RespondsAtMostOnce (s t : State) : Prop := ∃ u, KeepsAgents s u ∧ (t = u ∨ ∃ x, t = deliver x u)

theorem KeepsAgents.respondsAtMostOnce (h : KeepsAgents s t) : RespondsAtMostOnce s t := ⟨t, h, .inl rfl⟩

theorem KeepsAgents.deliver (h : KeepsAgents s t) (x : Response) : RespondsAtMostOnce s (deliver x t) :=
  ⟨t, h, .inr ⟨x, rfl⟩⟩

theorem RespondsAtMostOnce.cap (h : RespondsAtMostOnce s t) : t.cap = s.cap := by
  obtain ⟨u, hu, rfl | ⟨x, rfl⟩⟩ := h
  · exact hu.block.1
  · exact hu.block.1

theorem RespondsAtMostOnce.source (h : RespondsAtMostOnce s t) : t.source = s.source := by
  obtain ⟨u, hu, rfl | ⟨x, rfl⟩⟩ := h
  · exact hu.source
  · exact hu.source

/-- A response frees the port (R13, R28). -/
theorem RespondsAtMostOnce.responses (h : RespondsAtMostOnce s t) :
    t.responses = s.responses ∨ t.port = .idle ∧ ∃ x, t.responses = s.responses ++ [x] := by
  obtain ⟨u, hu, rfl | ⟨x, rfl⟩⟩ := h
  · exact .inl hu.responses
  · exact .inr ⟨rfl, x, by rw [deliver_responses, hu.responses]⟩

/-- A result that, if it is a next state, responds at most once. A fault and a refusal have no next state. -/
def ResultRespondsAtMostOnce (s : State) (r : Result) : Prop := ∀ t, r = .next t → RespondsAtMostOnce s t

theorem resultRespondsAtMostOnce_next (h : RespondsAtMostOnce s t) : ResultRespondsAtMostOnce s (.next t) := by
  intro t' ht
  cases ht
  exact h

theorem resultRespondsAtMostOnce_respond (d : RData) (h : KeepsAgents s u) :
    ResultRespondsAtMostOnce s (respond d u) := resultRespondsAtMostOnce_next (h.deliver _)

theorem resultRespondsAtMostOnce_raise (e : Error) (h : KeepsAgents s u) :
    ResultRespondsAtMostOnce s (raise e u) := resultRespondsAtMostOnce_next (h.deliver _)

theorem resultRespondsAtMostOnce_accepted (h : ResultRespondsAtMostOnce s r) :
    ResultRespondsAtMostOnce s (accepted s r) := fun t ht => h t (accepted_next ht).2

theorem resultRespondsAtMostOnce_withinBounds (off n : Nat) (h : ResultRespondsAtMostOnce s r) :
    ResultRespondsAtMostOnce s (withinBounds s off n r) := by
  rcases withinBounds_cases s off n r with ⟨-, hr⟩ | ⟨-, hr⟩
  · rw [hr]; exact h
  · rw [hr]; exact resultRespondsAtMostOnce_next ((KeepsAgents.refl s).deliver _)

theorem resultRespondsAtMostOnce_withLayout {k : Nat → Result} (h : ∀ n, ResultRespondsAtMostOnce s (k n)) :
    ResultRespondsAtMostOnce s (withLayout s k) := by
  rcases withLayout_cases s k with ⟨-, hr⟩ | ⟨-, hr⟩
  · rw [hr]; exact h _
  · rw [hr]; exact resultRespondsAtMostOnce_next ((KeepsAgents.refl s).deliver _)

/-! ### The decoder and the commands -/

theorem store_respondsAtMostOnce (v : Byte) (s : State) : ResultRespondsAtMostOnce s (store v s) := by
  have hkeep : KeepsAgents s (setByte s.didx v s) := (KeepsAgents.refl s).setByte _ _
  by_cases hlt : s.didx < s.cap.val
  · rcases store_cases s v hlt with ⟨-, -, hr⟩ | ⟨-, -, -, hr⟩ | ⟨-, -, hr⟩
    · rw [hr]; exact resultRespondsAtMostOnce_next (hkeep.endDecode.deliver _)
    · rw [hr]; exact resultRespondsAtMostOnce_next (hkeep.endDecode.deliver _)
    · rw [hr]; exact resultRespondsAtMostOnce_next (hkeep.setDecoder _ _).respondsAtMostOnce
  · rw [store_of_not_lt s v hlt]
    intro t ht
    cases ht

theorem takeByte_respondsAtMostOnce (w : Byte) (s : State) : ResultRespondsAtMostOnce s (takeByte w s) := by
  have hrefl := KeepsAgents.refl s
  cases ha : awaitsSource s with
  | false =>
    rw [takeByte_of_not_awaits s w ha]
    intro t ht
    cases ht
  | true =>
    rcases takeByte_cases s w ha with ⟨-, -, hr⟩ | ⟨-, -, hr⟩ | ⟨-, -, hr⟩ | ⟨-, -, hr⟩ | ⟨-, hr⟩
    · rw [hr]; exact resultRespondsAtMostOnce_next ((hrefl.setByte _ _).setDecoder _ _).respondsAtMostOnce
    · rw [hr]; exact resultRespondsAtMostOnce_next (hrefl.endDecode.deliver _)
    · rw [hr]; exact resultRespondsAtMostOnce_next (hrefl.setDecoder _ _).respondsAtMostOnce
    · rw [hr]; exact store_respondsAtMostOnce w s
    · rw [hr]; exact store_respondsAtMostOnce (unesc w) s

theorem startDecode_keepsAgents (c : WaitingCommand) (s : State) : KeepsAgents s (startDecode c s) :=
  ((KeepsAgents.refl s).setBusy c).setDecoder _ _

theorem startWrite_keepsAgents (n : Nat) (s : State) : KeepsAgents s (startWrite n s) :=
  (((KeepsAgents.refl s).setByte _ _).handToSink _).setBusy _

theorem execPayloadWr_respondsAtMostOnce (data : List Byte) (s : State) :
    ResultRespondsAtMostOnce s (execPayloadWr data s) := by
  have hrefl := KeepsAgents.refl s
  refine resultRespondsAtMostOnce_accepted ?_
  split
  · exact resultRespondsAtMostOnce_respond _ ((hrefl.memWrite _ _).setByte _ _)
  · exact resultRespondsAtMostOnce_raise _ hrefl

/-- Every command, in every state, responds at most once in its acceptance step. -/
theorem exec_command_respondsAtMostOnce {i : Instr} {y : Transaction} (he : encode i = .transaction y) (s : State) :
    ResultRespondsAtMostOnce s (exec i s) := by
  have hrefl := KeepsAgents.refl s
  cases i with
  | bufRd off =>
    exact resultRespondsAtMostOnce_accepted
      (resultRespondsAtMostOnce_withinBounds _ _ (resultRespondsAtMostOnce_respond _ hrefl))
  | bufWr off v =>
    exact resultRespondsAtMostOnce_accepted
      (resultRespondsAtMostOnce_withinBounds _ _ (resultRespondsAtMostOnce_respond _ (hrefl.setByte _ _)))
  | bufRdRange off len =>
    exact resultRespondsAtMostOnce_accepted
      (resultRespondsAtMostOnce_withinBounds _ _ (resultRespondsAtMostOnce_respond _ hrefl))
  | bufWrRange off data =>
    exact resultRespondsAtMostOnce_accepted
      (resultRespondsAtMostOnce_withinBounds _ _ (resultRespondsAtMostOnce_respond _ (hrefl.memWrite _ _)))
  | sizeRd => exact resultRespondsAtMostOnce_accepted (resultRespondsAtMostOnce_respond _ hrefl)
  | sizeWr n => exact resultRespondsAtMostOnce_accepted (resultRespondsAtMostOnce_respond _ (hrefl.setByte _ _))
  | payloadWr data => exact execPayloadWr_respondsAtMostOnce data s
  | validate => exact resultRespondsAtMostOnce_accepted (resultRespondsAtMostOnce_respond _ hrefl)
  | payloadRd | csumRd | csumCalc | encode =>
    exact resultRespondsAtMostOnce_accepted
      (resultRespondsAtMostOnce_withLayout fun _ => resultRespondsAtMostOnce_respond _ hrefl)
  | csumStamp =>
    exact resultRespondsAtMostOnce_accepted
      (resultRespondsAtMostOnce_withLayout fun _ => resultRespondsAtMostOnce_respond _ (hrefl.setByte _ _))
  | decode | readFrame =>
    exact resultRespondsAtMostOnce_accepted
      (resultRespondsAtMostOnce_next (startDecode_keepsAgents _ s).respondsAtMostOnce)
  | writeFrame =>
    exact resultRespondsAtMostOnce_accepted
      (resultRespondsAtMostOnce_withLayout fun n =>
        resultRespondsAtMostOnce_next (startWrite_keepsAgents n s).respondsAtMostOnce)
  | wireSync | wireEscaped | wireLiteral => simp [Sys2Proof.encode] at he

/-! ### The step -/

/-- The source has given at most its first answer, and none unless a decode waited in `s` (R11, R124). -/
def TakesAtMostOneAnswer (s t : State) : Prop :=
  t.source = s.source ∨ awaitsSource s = true ∧ ∃ a, s.source = a :: t.source

/-- RESET loses at most the pending read's answer (R172). -/
theorem resetBlock_takesAtMostOneAnswer (s : State) : TakesAtMostOneAnswer s (resetBlock s) := by
  rcases withdrawRead_cases s with hw | ⟨ha, src, rfl | rfl, hw⟩
  · exact .inl (by rw [resetBlock_source, hw])
  · exact .inl (by rw [resetBlock_source, hw])
  · have hsrc : (resetBlock s).source = s.source.tail := by rw [resetBlock_source, hw]
    cases hs : s.source with
    | nil => exact .inl (by rw [hsrc, hs]; rfl)
    | cons a rest => exact .inr ⟨ha, a, by rw [hsrc, hs]; rfl⟩

/-- A step, cut in two: an outside agent moves or RESET acts (to `u`: CAP stays, at most one answer leaves the source, and no
response is given), and then the block responds at most once. -/
theorem step_agent_then_response (h : step s = .next t) :
    ∃ u, u.cap = s.cap ∧ u.responses = s.responses ∧ TakesAtMostOneAnswer s u ∧ RespondsAtMostOnce u t := by
  rcases step_cases h with ⟨rest, -, rfl⟩ | ⟨x, rest, i, y, -, -, -, he, hx⟩ | ⟨x, rest, -, -, -, rfl⟩ |
    ⟨hs, src, w, ha, hsrc, hx⟩ | ⟨hs, src, ha, hsrc, rfl⟩ | ⟨hs, src, ha, hsrc, rfl⟩ | ⟨hs, snk, a, -, -, rfl⟩ |
    ⟨hs, rfl⟩
  · exact ⟨resetBlock { s with host := rest }, resetBlock_cap _, resetBlock_responses _,
      resetBlock_takesAtMostOneAnswer { s with host := rest }, (KeepsAgents.refl _).respondsAtMostOnce⟩
  · exact ⟨{ s with host := rest }, rfl, rfl, .inl rfl, exec_command_respondsAtMostOnce he _ t hx⟩
  · exact ⟨{ s with host := rest }, rfl, rfl, .inl rfl, (KeepsAgents.refl _).deliver _⟩
  · exact ⟨{ s with host := hs, source := src }, rfl, rfl, .inr ⟨ha, _, hsrc⟩, takeByte_respondsAtMostOnce w _ t hx⟩
  · exact ⟨{ s with host := hs, source := src }, rfl, rfl, .inr ⟨ha, _, hsrc⟩,
      (KeepsAgents.refl _).endDecode.deliver _⟩
  · exact ⟨{ s with host := hs, source := src }, rfl, rfl, .inr ⟨ha, _, hsrc⟩,
      (KeepsAgents.refl _).endDecode.deliver _⟩
  · exact ⟨{ s with host := hs, sink := snk }, rfl, rfl, .inl rfl, (KeepsAgents.refl _).deliver _⟩
  · exact ⟨{ s with host := hs }, rfl, rfl, .inl rfl, (KeepsAgents.refl _).respondsAtMostOnce⟩

/-- Settles O58: the agent's move takes at most one answer, and what the block does after it leaves the source alone. -/
theorem stepTakesAtMostOneSourceAnswer : Obligations.StepTakesAtMostOneSourceAnswer := by
  intro s t h
  obtain ⟨u, -, -, htake, hresp⟩ := step_agent_then_response h
  rw [hresp.source]
  exact htake

/-- Settles O59: the agent's move gives no response, and the block responds at most once after it, freeing the port. -/
theorem stepGivesAtMostOneResponse : Obligations.StepGivesAtMostOneResponse := by
  intro s t h
  obtain ⟨u, -, hu, -, hresp⟩ := step_agent_then_response h
  rw [← hu]
  exact hresp.responses

/-! ### Errors -/

theorem Error.status_ne_ok (e : Error) : e.status ≠ .ok := by cases e <;> simp [Error.status]

/-- A response changes PORT and the list of responses, and nothing else (R13, R28). -/
theorem deliver_frame (x : Response) (s : State) :
    SameBytes s (deliver x s) ∧ SameDecoder s (deliver x s) ∧ SameOutside s (deliver x s) ∧ SameBlock s (deliver x s) :=
  ⟨byteAt_deliver s x, ⟨rfl, rfl⟩, ⟨rfl, rfl, rfl, rfl, rfl⟩, ⟨rfl, rfl⟩⟩

/-- Settles O40: both are one `deliver` of the error's response, `abort` after the end of the decode, which itself touches
DPHASE and DIDX alone. -/
theorem raisingAnErrorRespondsAndFreesThePort : Obligations.RaisingAnErrorRespondsAndFreesThePort := by
  intro e s
  obtain ⟨hbytes, -, houtside, hblock⟩ := deliver_frame e.response (endDecode s)
  exact ⟨⟨deliver e.response s, rfl, ⟨rfl, rfl⟩, e.status_ne_ok, deliver_frame e.response s⟩,
    ⟨deliver e.response (endDecode s), rfl, ⟨⟨rfl, rfl⟩, rfl, rfl⟩, hbytes, houtside, hblock⟩⟩

end Sys2Proof.Machine
end

section
/-! The state's rules (10_state.md R20 to R33): what a command can do to the block, that every step keeps CAP and the invariant
of buffer, decoder, port and sink, and what RESET restores. -/

namespace Sys2Proof.Machine

variable {s t u : State} {r : Result}

/-! ### What one command can do -/

/-- From `s` to `t` only buffer bytes below CAP have been written (R10, R45). -/
inductive BufferEdit (s : State) : State → Prop where
  | refl : BufferEdit s s
  | setByte {u : State} {i : Nat} (h : BufferEdit s u) (hi : i < s.cap.val) (v : Byte) : BufferEdit s (setByte i v u)
  | memWrite {u : State} {off : Nat} {data : List Byte} (h : BufferEdit s u) (hn : off + data.length ≤ s.cap.val) :
      BufferEdit s (memWrite off data u)

theorem BufferEdit.keepsAgents (h : BufferEdit s u) : KeepsAgents s u := by
  induction h with
  | refl => exact KeepsAgents.refl s
  | setByte _ _ v ih => exact ih.setByte _ v
  | memWrite _ _ ih => exact ih.memWrite _ _

theorem BufferEdit.sameDecoder (h : BufferEdit s u) : SameDecoder s u := by
  induction h with
  | refl => exact ⟨rfl, rfl⟩
  | setByte _ _ _ ih => exact ih
  | memWrite _ _ ih => exact ih

/-- A result that is a response, given after writes to the buffer alone. -/
def Answers (s : State) (r : Result) : Prop := ∃ u x, BufferEdit s u ∧ r = .next (deliver x u)

theorem answers_respond (d : RData) (h : BufferEdit s u) : Answers s (respond d u) := ⟨u, _, h, rfl⟩

theorem answers_raise (e : Error) (h : BufferEdit s u) : Answers s (raise e u) := ⟨u, _, h, rfl⟩

theorem answers_withinBounds {off n : Nat} (h : off + n ≤ s.cap.val → Answers s r) :
    Answers s (withinBounds s off n r) := by
  rcases withinBounds_cases s off n r with ⟨hb, hr⟩ | ⟨-, hr⟩
  · rw [hr]; exact h hb
  · exact ⟨s, _, .refl, hr⟩

theorem answers_withLayout {k : Nat → Result} (h : sizeOK s (sizeField s) → Answers s (k (sizeField s).toNat)) :
    Answers s (withLayout s k) := by
  rcases withLayout_cases s k with ⟨hz, hr⟩ | ⟨-, hr⟩
  · rw [hr]; exact h hz
  · exact ⟨s, _, .refl, hr⟩

theorem offSize_lt_cap (s : State) : offSize < s.cap.val := by
  have := s.cap.property
  simp only [offSize]
  omega

theorem bufferEdit_putPayload {data : List Byte} (h : data.length ≤ maxPayload s) :
    BufferEdit s (putPayload data s) := by
  have hfit : offPay + data.length ≤ s.cap.val := by
    have := (maxPayload_lt s).2
    simp only [offPay]
    omega
  exact .setByte (.memWrite .refl hfit) (offSize_lt_cap s) _

theorem bufferEdit_stamp (h : sizeOK s (sizeField s)) : BufferEdit s (stamp (sizeField s).toNat s) :=
  .setByte .refl (frame_below_cap h) _

/-- An instruction that a ready port answers in its own step. -/
def AnsweredAtOnce (i : Instr) : Prop := ∀ s, ∃ r, exec i s = accepted s r ∧ Answers s r

/-- Every command but the three of R28 that wait is answered in its own step. -/
theorem answeredAtOnce_of_not_waiting {i : Instr} {y : Transaction} (he : encode i = .transaction y)
    (hd : i ≠ .decode) (hr : i ≠ .readFrame) (hw : i ≠ .writeFrame) : AnsweredAtOnce i := by
  intro s
  cases i with
  | bufRd off => exact ⟨_, rfl, answers_withinBounds fun _ => answers_respond _ .refl⟩
  | bufWr off v => exact ⟨_, rfl, answers_withinBounds fun hb => answers_respond _ (.setByte .refl hb v)⟩
  | bufRdRange off len => exact ⟨_, rfl, answers_withinBounds fun _ => answers_respond _ .refl⟩
  | bufWrRange off data => exact ⟨_, rfl, answers_withinBounds fun hb => answers_respond _ (.memWrite .refl hb)⟩
  | sizeRd | validate => exact ⟨_, rfl, answers_respond _ .refl⟩
  | sizeWr n => exact ⟨_, rfl, answers_respond _ (.setByte .refl (offSize_lt_cap s) n)⟩
  | payloadRd | csumRd | csumCalc | encode => exact ⟨_, rfl, answers_withLayout fun _ => answers_respond _ .refl⟩
  | payloadWr data =>
    refine ⟨_, rfl, ?_⟩
    split
    · rename_i hfit; exact answers_respond _ (bufferEdit_putPayload hfit)
    · exact answers_raise _ .refl
  | csumStamp => exact ⟨_, rfl, answers_withLayout fun hz => answers_respond _ (bufferEdit_stamp hz)⟩
  | decode => exact absurd rfl hd
  | readFrame => exact absurd rfl hr
  | writeFrame => exact absurd rfl hw
  | wireSync | wireEscaped | wireLiteral => simp [Sys2Proof.encode] at he

/-- A command that answers next, whole: a response after writes to the buffer alone, or one of the three starts of a wait. -/
theorem exec_command_cases {i : Instr} {y : Transaction} (he : encode i = .transaction y) (h : exec i s = .next t) :
    (∃ u x, BufferEdit s u ∧ t = deliver x u) ∨
      (i = .decode ∧ t = startDecode .decode s) ∨
      (i = .readFrame ∧ t = startDecode .readFrame s) ∨
      (i = .writeFrame ∧ sizeOK s (sizeField s) ∧ t = startWrite (sizeField s).toNat s) := by
  by_cases hd : i = .decode
  · subst hd
    cases (accepted_next h).2
    exact .inr (.inl ⟨rfl, rfl⟩)
  by_cases hr : i = .readFrame
  · subst hr
    cases (accepted_next h).2
    exact .inr (.inr (.inl ⟨rfl, rfl⟩))
  by_cases hw : i = .writeFrame
  · subst hw
    have hl := (accepted_next h).2
    rcases withLayout_cases s (fun n => .next (startWrite n s)) with ⟨hz, hk⟩ | ⟨-, hk⟩
    · cases hk.symm.trans hl
      exact .inr (.inr (.inr ⟨rfl, hz, rfl⟩))
    · cases hk.symm.trans hl
      exact .inl ⟨s, _, .refl, rfl⟩
  obtain ⟨r, hacc, u, x, hu, hr⟩ := answeredAtOnce_of_not_waiting he hd hr hw s
  rw [hacc] at h
  cases hr.symm.trans (accepted_next h).2
  exact .inl ⟨u, x, hu, rfl⟩

/-! ### The buffer and the decoder at rest -/

/-- The invariant's part about the buffer: canonical form, and nothing listed at or above CAP. -/
def BufferInv (s : State) : Prop := Memory.wf s.buf ∧ ∀ c ∈ s.buf, c.1 < s.cap.val

theorem Inv.bufferInv (h : Inv s) : BufferInv s := ⟨h.1, h.2.1⟩

theorem BufferInv.setByte {i : Nat} (h : BufferInv s) (hi : i < s.cap.val) (v : Byte) : BufferInv (setByte i v s) :=
  ⟨Memory.wf_write h.1 i v, Memory.below_write h.2 hi v⟩

theorem BufferInv.memWrite {off : Nat} {data : List Byte} (h : BufferInv s) (hn : off + data.length ≤ s.cap.val) :
    BufferInv (memWrite off data s) :=
  ⟨Memory.wf_writeList h.1 off data, Memory.below_writeList h.2 hn⟩

theorem BufferEdit.bufferInv (h : BufferEdit s u) (hs : BufferInv s) : BufferInv u := by
  induction h with
  | refl => exact hs
  | setByte hu hi v ih => exact ih.setByte (hu.keepsAgents.block.1 ▸ hi) v
  | memWrite hu hn ih => exact ih.memWrite (hu.keepsAgents.block.1 ▸ hn)

/-- The decoder is idle and the buffer meets its part of the invariant: what holds between two decodes. -/
structure AtRest (s : State) : Prop where
  buffer : BufferInv s
  dphase : s.dphase = .idle
  didx : s.didx = 0

theorem BufferInv.endDecode (h : BufferInv s) : AtRest (endDecode s) := ⟨h, rfl, rfl⟩

theorem BufferEdit.atRest (h : BufferEdit s u) (hs : AtRest s) : AtRest u :=
  ⟨h.bufferInv hs.buffer, h.sameDecoder.1.trans hs.dphase, h.sameDecoder.2.trans hs.didx⟩

theorem AtRest.decoderInv (h : AtRest s) (hp : ¬ Decoding s) : DecoderInv s := by
  simp only [DecoderInv, h.dphase]
  exact ⟨h.didx, hp⟩

/-- At rest with PORT idle, the invariant holds whatever the buffer's bytes are. -/
theorem AtRest.inv_of_port_idle (h : AtRest s) (hp : s.port = .idle) : Inv s :=
  ⟨h.buffer.1, h.buffer.2, fun _ => ⟨h.decoderInv (by simp [Decoding, hp]), fun hw => by simp [hp] at hw⟩⟩

theorem AtRest.inv_deliver (h : AtRest s) (x : Response) : Inv (deliver x s) :=
  AtRest.inv_of_port_idle (s := deliver x s) ⟨h.buffer, h.dphase, h.didx⟩ rfl

/-- The decoder is idle while no decode is in progress (R26, R28). -/
theorem Inv.atRest (h : Inv s) (hr : s.resetDone = true) (hp : ¬ Decoding s) : AtRest s := by
  have hdec := (h.2.2 hr).1
  unfold DecoderInv at hdec
  split at hdec
  · rename_i hd; exact ⟨h.bufferInv, hd, hdec.1⟩
  · exact absurd hdec.2 hp
  · exact absurd hdec.1 hp
  · exact absurd hdec.1 hp

theorem not_decoding_of_ready (h : Ready s) : ¬ Decoding s := by simp [Decoding, h.2]

/-! ### The invariant at the starts of the three waits -/

theorem inv_startDecode (h : BufferInv s) {c : WaitingCommand} (hc : c ≠ .writeFrame) : Inv (startDecode c s) := by
  have hdec : Decoding (startDecode c s) := by
    cases c with
    | decode => exact .inl rfl
    | readFrame => exact .inr rfl
    | writeFrame => exact absurd rfl hc
  refine ⟨h.1, h.2, fun _ => ⟨⟨rfl, hdec⟩, fun hw => ?_⟩⟩
  cases hw
  exact absurd rfl hc

/-- What WRITE_FRAME leaves: a legal, stamped frame whose wire image the sink has got (R51, R144). -/
theorem writeInv_startWrite (h : sizeOK s (sizeField s)) : WriteInv (startWrite (sizeField s).toNat s) := by
  intro _
  have hz : sizeField (startWrite (sizeField s).toNat s) = sizeField s := sizeField_stamp s h.1
  rw [hz]
  exact ⟨h, (storedSum_stamp s _).trans (frameSum_stamp s _).symm, List.getLast?_concat⟩

theorem AtRest.inv_startWrite (h : AtRest s) (hz : sizeOK s (sizeField s)) :
    Inv (startWrite (sizeField s).toNat s) := by
  have hrest : AtRest (stamp (sizeField s).toNat s) := (bufferEdit_stamp hz).atRest h
  have hrest' : AtRest (startWrite (sizeField s).toNat s) := ⟨hrest.buffer, hrest.dphase, hrest.didx⟩
  exact ⟨hrest.buffer.1, hrest.buffer.2,
    fun _ => ⟨hrest'.decoderInv (by simp [Decoding, startWrite]), writeInv_startWrite hz⟩⟩

/-- Every command keeps the invariant. -/
theorem exec_command_keeps_inv {i : Instr} {y : Transaction} (he : encode i = .transaction y) (hinv : Inv s)
    (h : exec i s = .next t) : Inv t := by
  have hready : Ready s := exec_command_ready he h
  have hrest : AtRest s := hinv.atRest hready.1 (not_decoding_of_ready hready)
  rcases exec_command_cases he h with ⟨u, x, hu, rfl⟩ | ⟨-, rfl⟩ | ⟨-, rfl⟩ | ⟨-, hz, rfl⟩
  · exact (hu.atRest hrest).inv_deliver x
  · exact inv_startDecode hrest.buffer (by decide)
  · exact inv_startDecode hrest.buffer (by decide)
  · exact hrest.inv_startWrite hz

/-! ### The invariant at the decoder's steps -/

/-- In a frame, past the sync, the invariant is the buffer's part and `InFrame`: WRITE_FRAME is not in progress. -/
theorem inv_of_inFrame (hb : BufferInv s) (hp : s.dphase = .normal ∨ s.dphase = .escSeen)
    (hf : DecoderInv.InFrame s) : Inv s := by
  refine ⟨hb.1, hb.2, fun _ => ⟨?_, fun hw => ?_⟩⟩
  · rcases hp with hp | hp <;> simpa only [DecoderInv, hp] using hf
  · rcases hf.1 with hd | hd <;> simp [hd] at hw

theorem Inv.inFrame (h : Inv s) (hr : s.resetDone = true) (hp : s.dphase = .normal ∨ s.dphase = .escSeen) :
    DecoderInv.InFrame s := by
  have hdec := (h.2.2 hr).1
  rcases hp with hp | hp <;> simpa only [DecoderInv, hp] using hdec

/-- R129: in a frame DIDX stays below CAP. -/
theorem didx_lt_cap_of_inFrame (h : DecoderInv.InFrame s) : s.didx < s.cap.val := by
  obtain ⟨-, -, -, hmax, -⟩ := h
  have := s.cap.property
  rw [maxSize_eq] at hmax
  omega

/-- A byte stored that neither ends the frame nor is a bad size byte leaves the decoder in the frame, one offset further on
(R129, R130). -/
theorem inFrame_after_store {v : Byte} (h : DecoderInv.InFrame s) (hsize : ¬ (s.didx = 2 ∧ ¬ sizeOK s v))
    (hlast : ¬ (3 ≤ s.didx ∧ s.didx = 2 + (byteAt s 2).toNat)) :
    DecoderInv.InFrame (setDecoder .normal (s.didx + 1) (setByte s.didx v s)) := by
  obtain ⟨hdec, hsync, hpos, hmax, hbody⟩ := h
  have hsync' : byteAt (setByte s.didx v s) 0 = SYNC := (byteAt_setByte_of_ne (by omega) s v).trans hsync
  -- The size that bounds DIDX from offset 3 on: the byte just stored, or the one stored before.
  have hbody' : 2 ≤ s.didx → sizeOK s (byteAt (setByte s.didx v s) 2) ∧
      s.didx + 1 ≤ 2 + (byteAt (setByte s.didx v s) 2).toNat := by
    intro h2
    by_cases he : s.didx = 2
    · have hv : sizeOK s v := by_contra fun hv => hsize ⟨he, hv⟩
      have hpos' := hv.1
      rw [he, byteAt_setByte_self]
      exact ⟨hv, by omega⟩
    · obtain ⟨hz, hle⟩ := hbody (by omega)
      have hle' : s.didx ≤ 2 + (byteAt s 2).toNat := hle
      rw [byteAt_setByte_of_ne he]
      exact ⟨hz, by omega⟩
  refine ⟨hdec, hsync', Nat.le_add_left 1 _, ?_, fun h3 => hbody' (Nat.le_of_succ_le_succ h3)⟩
  show s.didx + 1 ≤ 2 + maxSize s
  by_cases h2 : 2 ≤ s.didx
  · obtain ⟨⟨-, hz⟩, hle⟩ := hbody' h2
    omega
  · have := (maxPayload_lt s).1
    omega

theorem store_keeps_inv {v : Byte} (hb : BufferInv s) (hf : DecoderInv.InFrame s) (h : store v s = .next t) :
    Inv t := by
  have hlt : s.didx < s.cap.val := didx_lt_cap_of_inFrame hf
  have hb' : BufferInv (setByte s.didx v s) := hb.setByte hlt v
  rcases store_cases s v hlt with ⟨-, -, hr⟩ | ⟨-, -, -, hr⟩ | ⟨hsize, hlast, hr⟩
  · cases hr.symm.trans h
    exact hb'.endDecode.inv_deliver _
  · cases hr.symm.trans h
    exact hb'.endDecode.inv_deliver _
  · cases hr.symm.trans h
    exact inv_of_inFrame hb' (.inl rfl) (inFrame_after_store hf hsize hlast)

theorem inv_acceptSync (hb : BufferInv s) (hd : Decoding s) : Inv (acceptSync s) := by
  have hcap : offSync < s.cap.val := Nat.lt_of_lt_of_le (by decide) s.cap.property.1
  have hmax : 1 ≤ 2 + maxSize s := by omega
  have hsync : byteAt (acceptSync s) 0 = SYNC := by simp [byteAt_acceptSync]
  exact inv_of_inFrame (hb.setByte hcap SYNC) (.inl rfl)
    ⟨hd, hsync, Nat.le_refl 1, hmax, fun h3 => absurd h3 (by simp [acceptSync])⟩

/-- Every row of R123 for a byte keeps the invariant. -/
theorem takeByte_keeps_inv {w : Byte} (hinv : Inv s) (ha : awaitsSource s = true) (h : takeByte w s = .next t) :
    Inv t := by
  obtain ⟨hreset, hdec, -⟩ := (awaitsSource_iff s).mp ha
  have hb := hinv.bufferInv
  rcases takeByte_cases s w ha with ⟨-, -, hr⟩ | ⟨-, -, hr⟩ | ⟨hp, -, hr⟩ | ⟨hp, -, hr⟩ | ⟨hp, hr⟩
  · cases hr.symm.trans h
    exact inv_acceptSync hb hdec
  · cases hr.symm.trans h
    exact hb.endDecode.inv_deliver _
  · cases hr.symm.trans h
    exact inv_of_inFrame (s := setDecoder .escSeen s.didx s) hb (.inr rfl) (hinv.inFrame hreset (.inl hp))
  · exact store_keeps_inv hb (hinv.inFrame hreset (.inl hp)) (hr.symm.trans h)
  · exact store_keeps_inv hb (hinv.inFrame hreset (.inr hp)) (hr.symm.trans h)

/-! ### The invariant at reset and at every step -/

theorem bufferInv_of_buf_nil (h : s.buf = []) : BufferInv s := ⟨h ▸ Memory.wf_nil, by simp [h]⟩

theorem inv_resetBlock (s : State) : Inv (resetBlock s) :=
  AtRest.inv_of_port_idle ⟨bufferInv_of_buf_nil rfl, rfl, rfl⟩ rfl

theorem inv_resetOf (cap : Capacity) : Inv (State.resetOf cap) :=
  AtRest.inv_of_port_idle ⟨bufferInv_of_buf_nil rfl, rfl, rfl⟩ rfl

/-- The invariant does not speak of the moves and answers still to come. -/
theorem inv_agents (hs : List HostMove) (src : List SourceAnswer) (snk : List SinkAnswer) :
    Inv { s with host := hs, source := src, sink := snk } ↔ Inv s := Iff.rfl

/-- Settles O54, by the cases of a step: RESET and the ends of a command leave the decoder at rest with PORT idle, a command
keeps the invariant from a ready port, and a byte of the source keeps it from a decode in progress. -/
theorem stepKeepsTheInvariant : Obligations.StepKeepsTheInvariant := by
  intro s t hinv h
  rcases step_cases h with ⟨rest, -, rfl⟩ | ⟨x, rest, i, y, -, -, -, he, hx⟩ | ⟨x, rest, -, hready, -, rfl⟩ |
    ⟨hs, src, w, ha, -, hx⟩ | ⟨hs, src, -, -, rfl⟩ | ⟨hs, src, -, -, rfl⟩ | ⟨hs, snk, a, ha, -, rfl⟩ | ⟨hs, rfl⟩
  · exact inv_resetBlock _
  · exact exec_command_keeps_inv he ((inv_agents rest s.source s.sink).mpr hinv) hx
  · have hinv' : Inv { s with host := rest } := (inv_agents rest s.source s.sink).mpr hinv
    exact (hinv'.atRest hready.1 (not_decoding_of_ready hready)).inv_deliver _
  · exact takeByte_keeps_inv ((inv_agents hs src s.sink).mpr hinv) ha hx
  · exact ((inv_agents hs src s.sink).mpr hinv).bufferInv.endDecode.inv_deliver _
  · exact ((inv_agents hs src s.sink).mpr hinv).bufferInv.endDecode.inv_deliver _
  · obtain ⟨hreset, hport⟩ := (awaitsSink_iff s).mp ha
    have hinv' : Inv { s with host := hs, sink := snk } := (inv_agents hs s.source snk).mpr hinv
    exact (hinv'.atRest hreset (by simp [Decoding, hport])).inv_deliver _
  · exact (inv_agents hs s.source s.sink).mpr hinv

/-- Settles O55: nothing is listed in the buffer, and decoder and port are idle. -/
theorem resetMeetsTheInvariant : Obligations.ResetMeetsTheInvariant := ⟨inv_resetOf Config.cap, inv_resetOf⟩

/-! ### The command port -/

theorem RespondsAtMostOnce.host (h : RespondsAtMostOnce s t) : t.host = s.host := by
  obtain ⟨u, hu, rfl | ⟨x, rfl⟩⟩ := h
  · exact hu.host
  · exact hu.host

/-- A turn of the source or the sink takes no move of the host. -/
theorem step_host_of_answerTurn (hn : nextTurn s = answerTurn s) (h : step s = .next t) : t.host = s.host := by
  rcases answerTurn_cases s with ⟨a, src, ha, -, ht⟩ | ⟨a, snk, -, -, ht⟩ | ht
  · rw [ht] at hn
    cases a with
    | byte w =>
      rw [step_of_byte hn ha] at h
      exact (takeByte_respondsAtMostOnce w _ t h).host
    | eof =>
      simp only [step, hn] at h
      rw [abort_next h]; rfl
    | ioerr =>
      simp only [step, hn] at h
      rw [abort_next h]; rfl
  · rw [ht] at hn
    simp only [step, hn] at h
    cases a with
    | ok => rw [respond_next h]; rfl
    | ioerr => rw [raise_next h]; rfl
  · rw [ht] at hn
    simp only [step, hn, Host.Outcome.next.injEq] at h
    rw [← h]

theorem portFree_of_busy (hr : s.resetDone = true) (hp : s.port ≠ .idle) : portFree s = false := by
  simp [portFree, hr, hp]

/-- Settles O45: a held port leaves the turn to the source or the sink. -/
theorem commandWaitsForTheResponse : Obligations.CommandWaitsForTheResponse := by
  intro s t x rest hr hp hhost h
  have hwaits : HostWaits s := by
    intro m rest' hm
    cases hhost.symm.trans hm
    exact ⟨nofun, nofun⟩
  exact step_host_of_answerTurn (nextTurn_of_hostWaits hwaits (portFree_of_busy hr hp)) h

/-- Settles O46, by what one command can do: of its four cases, the three that give no response are the three commands
named. -/
theorem onlyWaitingCommandsStayBusy : Obligations.OnlyWaitingCommandsStayBusy := by
  intro s t i x he h
  rcases exec_command_cases he h with ⟨u, r, hu, rfl⟩ | ⟨hi, rfl⟩ | ⟨hi, rfl⟩ | ⟨hi, -, rfl⟩
  · exact ⟨fun _ => ⟨rfl, r, by rw [deliver_responses, hu.keepsAgents.responses]⟩, .inl rfl⟩
  · exact ⟨fun hne => absurd hi hne.1, .inr rfl⟩
  · exact ⟨fun hne => absurd hi hne.2.1, .inr rfl⟩
  · exact ⟨fun hne => absurd hi hne.2.2, .inr rfl⟩

/-! ### CAP, RESET and the layout -/

/-- Settles O57: neither the agent's move nor the block's response to it touches CAP. -/
theorem noStepChangesTheCapacity : Obligations.NoStepChangesTheCapacity := by
  intro s t h
  obtain ⟨u, hcap, -, -, hresp⟩ := step_agent_then_response h
  rw [hresp.cap, hcap]

/-- RESET of a block that is as RESET leaves it changes nothing (R171). -/
theorem resetBlock_idem (s : State) (hs : List HostMove) :
    resetBlock { resetBlock s with host := hs } = { resetBlock s with host := hs } :=
  resetBlock_of_not_awaits rfl

/-- Settles O42: the step is `resetBlock`, whose fields are the reset values. -/
theorem resetRestoresEveryItem : Obligations.ResetRestoresEveryItem := by
  refine ⟨fun s rest h => ⟨_, step_of_reset h, byteAt_resetBlock _, rfl, rfl, rfl, rfl, resetBlock_cap _, rfl,
    resetBlock_host _, resetBlock_sink _, resetBlock_sinkGot _, fun ha => ?_, fun rest' hrest => ?_⟩,
    fun _ => rfl, rfl, rfl, rfl, rfl⟩
  · rw [resetBlock_of_not_awaits (s := { s with host := rest }) ha]
  · rw [step_of_reset ((resetBlock_host _).trans hrest), resetBlock_idem]

/-- Settles O48: `frame_below_cap`; the fields' offsets follow each other by R22. -/
theorem legalFramesFitTheBuffer : Obligations.LegalFramesFitTheBuffer := by
  intro s z hz
  have hpos : 1 ≤ z.toNat := hz.1
  refine ⟨frame_below_cap hz, by decide, by decide, by decide, ?_⟩
  simp only [offPay, offCk]
  omega

end Sys2Proof.Machine
end

section
/-! The memory rules of a decode (20_memory.md R46): the steps of a decode in progress, and the one byte each can store. -/

namespace Sys2Proof.Machine

variable {s t : State}

/-! ### The steps of a decode in progress -/

/-- A decode in progress leaves the turn to the source while the host waits. -/
theorem nextTurn_of_awaitsSource (ha : awaitsSource s = true) (hw : HostWaits s) : nextTurn s = answerTurn s :=
  nextTurn_of_hostWaits hw (portFree_of_awaits (.inl ha))

/-- A step of a decode, whole: the source is silent (R183), its byte is taken, or EOF or IOERR ends the decode (R123). -/
theorem step_cases_of_awaitsSource (ha : awaitsSource s = true) (hw : HostWaits s) (h : step s = .next t) :
    (s.source = [] ∧ t = s) ∨
      (∃ w src, s.source = .byte w :: src ∧ takeByte w { s with source := src } = .next t) ∨
      (∃ src, s.source = .eof :: src ∧
        t = deliver ⟨.unexpectedEndOfStream, .position s.didx⟩ (endDecode { s with source := src })) ∨
      (∃ src, s.source = .ioerr :: src ∧
        t = deliver ⟨.ioError, .atSource s.didx⟩ (endDecode { s with source := src })) := by
  have hn := nextTurn_of_awaitsSource ha hw
  cases hs : s.source with
  | nil =>
    have ht : answerTurn s = ⟨.quiet, s⟩ := by simp [answerTurn, ha, hs]
    simp only [step, hn, ht, Host.Outcome.next.injEq] at h
    exact .inl ⟨rfl, h.symm⟩
  | cons a src =>
    have ht : answerTurn s = ⟨.sourceAnswers a, { s with source := src }⟩ := by simp [answerTurn, ha, hs]
    rw [ht] at hn
    cases a with
    | byte w => exact .inr (.inl ⟨w, src, rfl, (step_of_byte hn ha).symm.trans h⟩)
    | eof =>
      simp only [step, hn] at h
      exact .inr (.inr (.inl ⟨src, rfl, abort_next h⟩))
    | ioerr =>
      simp only [step, hn] at h
      exact .inr (.inr (.inr ⟨src, rfl, abort_next h⟩))

/-! ### The byte that a decode stores -/

/-- The one offset at which the decoder can store in its next step: the sync goes to offset 0 whatever DIDX is (R126), any
later byte to DIDX (R129). -/
def decoderOffset (s : State) : Nat := if s.dphase = .sync then 0 else s.didx

theorem decoderOffset_of_sync (h : s.dphase = .sync) : decoderOffset s = 0 := if_pos h

theorem decoderOffset_of_ne_sync (h : s.dphase ≠ .sync) : decoderOffset s = s.didx := if_neg h

/-- Whether the frame goes on, is complete or has an illegal size, Store writes at DIDX alone (R129). -/
theorem byteAt_of_store {v : Byte} (h : store v s = .next t) {i : Nat} (hi : i ≠ s.didx) : byteAt t i = byteAt s i := by
  have hset : byteAt (setByte s.didx v s) i = byteAt s i := byteAt_setByte_of_ne hi.symm s v
  by_cases hlt : s.didx < s.cap.val
  · rcases store_cases s v hlt with ⟨-, -, hr⟩ | ⟨-, -, -, hr⟩ | ⟨-, -, hr⟩
    all_goals
      cases hr.symm.trans h
      exact hset
  · cases (store_of_not_lt s v hlt).symm.trans h

/-- Every row of R123 for a byte stores at the decoder's offset or nowhere. -/
theorem byteAt_of_takeByte {w : Byte} (ha : awaitsSource s = true) (h : takeByte w s = .next t) {i : Nat}
    (hi : i ≠ decoderOffset s) : byteAt t i = byteAt s i := by
  rcases takeByte_cases s w ha with ⟨hp, -, hr⟩ | ⟨-, -, hr⟩ | ⟨-, -, hr⟩ | ⟨hp, -, hr⟩ | ⟨hp, hr⟩
  · cases hr.symm.trans h
    rw [decoderOffset_of_sync hp] at hi
    rw [byteAt_acceptSync, if_neg hi]
  · cases hr.symm.trans h
    rfl
  · cases hr.symm.trans h
    rfl
  · rw [decoderOffset_of_ne_sync (by simp [hp])] at hi
    exact byteAt_of_store (hr.symm.trans h) hi
  · rw [decoderOffset_of_ne_sync (by simp [hp])] at hi
    exact byteAt_of_store (hr.symm.trans h) hi

/-- Settles O31, by the four steps a decode can take: only a byte of the source stores anything, and `byteAt_of_takeByte` says
where. -/
theorem decodeStepStoresAtMostOneByte : Obligations.DecodeStepStoresAtMostOneByte := by
  intro s t ha hw h i hi
  rcases step_cases_of_awaitsSource ha hw h with ⟨-, rfl⟩ | ⟨w, src, -, hx⟩ | ⟨src, -, rfl⟩ | ⟨src, -, rfl⟩
  · rfl
  · exact byteAt_of_takeByte (s := { s with source := src }) ha hx hi
  · rfl
  · rfl

end Sys2Proof.Machine
end

section
/-! The encodings (30_encoding.md R55 to R71): decoder and encoder invert each other, a step runs the instruction that the
decoder reads, a wire image is canonical, and PACK builds a valid frame. -/

namespace Sys2Proof.Machine

variable {s u : State} {i j : Instr}

/-! ### From an instruction to its encoding and back -/

/-- Only a `data` operand's length (R57) and a literal's byte (R62) need the hypothesis; the rest is read off the code. -/
theorem decode_encode (h : WellFormed i = true) : decode (encode i) = .instr i := by
  cases i with
  | bufWrRange off data =>
    have hfit : dataFits data := of_decide_eq_true h
    exact if_pos hfit
  | payloadWr data =>
    have hfit : dataFits data := of_decide_eq_true h
    exact if_pos hfit
  | wireLiteral w =>
    have hw : w ≠ ESC := of_decide_eq_true h
    exact if_neg hw
  | _ => rfl

/-! ### From an encoded form to its instruction and back -/

/-- `x` is the encoding of `i`, and `i` is well-formed (R57, R62). -/
def Encodes (x : Encoded) (i : Instr) : Prop := WellFormed i = true ∧ encode i = x

/-- A code is known by its number. -/
theorem transaction_congr {code c : Byte} {operands : List Operand} (h : code.toNat = c.toNat) :
    Encoded.transaction ⟨c, operands⟩ = .transaction ⟨code, operands⟩ := by
  rw [BitVec.eq_of_toNat_eq h]

/-- A command without operands is encoded by its code alone (R59). -/
theorem encodes_of_noOperands {x : Transaction} {c : Byte} (h : decodeTransaction.noOperands x j = .instr i)
    (hj : Encodes (.transaction ⟨c, []⟩) j) (hc : x.code.toNat = c.toNat) : Encodes (.transaction x) i := by
  obtain ⟨code, operands⟩ := x
  cases operands with
  | nil =>
    cases h
    exact ⟨hj.1, hj.2.trans (transaction_congr hc)⟩
  | cons o os => cases h

/-- A transaction encodes what it decodes to: the code fixes the command (R59), the operand fields its operands (R57). -/
theorem encodes_of_decodeTransaction {x : Transaction} (h : decodeTransaction x = .instr i) :
    Encodes (.transaction x) i := by
  obtain ⟨code, operands⟩ := x
  unfold decodeTransaction at h
  split at h <;> rename_i hc
  -- Operands of fixed width: BUF_RD, BUF_WR, BUF_RD_RANGE, SIZE_WR.
  case h_1 | h_2 | h_3 | h_6 =>
    split at h
    · rename_i ho
      cases ho
      cases h
      exact ⟨rfl, transaction_congr hc⟩
    · cases h
  -- A `data` operand, read within R57's length alone: BUF_WR_RANGE, PAYLOAD_WR.
  case h_4 | h_8 =>
    split at h
    · rename_i ho
      cases ho
      split at h
      · rename_i hfit
        cases h
        exact ⟨decide_eq_true hfit, transaction_congr hc⟩
      · cases h
    · cases h
  case h_17 => cases h
  all_goals exact encodes_of_noOperands h ⟨rfl, rfl⟩ hc

/-- The one symbol at the start of a frame (R62). -/
theorem encodes_of_decodeFirst {wire : List Byte} (h : decodeFirst wire = .instr i) : Encodes (.firstSymbol wire) i := by
  cases wire with
  | nil => cases h
  | cons w rest =>
    by_cases hw : w = SYNC
    · subst hw
      cases rest with
      | nil => cases h; exact ⟨rfl, rfl⟩
      | cons e es => cases h
    · simp [decodeFirst, hw] at h

/-- After the sync: an escape and its operand, or one byte other than ESC (R62, R63). -/
theorem encodes_of_decodeSymbol {wire : List Byte} (h : decodeSymbol wire = .instr i) : Encodes (.symbol wire) i := by
  cases wire with
  | nil => cases h
  | cons w rest =>
    by_cases hw : w = ESC
    · subst hw
      match rest, h with
      | [e], rfl => exact ⟨rfl, rfl⟩
    · cases rest with
      | nil =>
        obtain rfl : .wireLiteral w = i := by simpa [decodeSymbol, hw] using h
        exact ⟨decide_eq_true hw, rfl⟩
      | cons e es => simp [decodeSymbol, hw] at h

/-- Settles O53: one direction is `decode_encode`, the other goes by the kind of the encoded form. -/
theorem decodeAndEncodeAgree : Obligations.DecodeAndEncodeAgree := by
  refine ⟨fun i h => decode_encode h, fun x i h => ?_⟩
  cases x with
  | transaction x => exact encodes_of_decodeTransaction h
  | firstSymbol wire => exact encodes_of_decodeFirst h
  | symbol wire => exact encodes_of_decodeSymbol h

/-- Settles O52: each word is what the encoder makes of its instruction. -/
theorem knownEncodingsDecode : Obligations.KnownEncodingsDecode :=
  ⟨decode_encode (i := .bufWr 1#16 255#8) rfl, decode_encode (i := .payloadWr [1#8, 2#8]) rfl,
    decode_encode (i := .csumStamp) rfl, decode_encode (i := .validate) rfl, decode_encode (i := .decode) rfl,
    decode_encode (i := .writeFrame) rfl, decode_encode (i := .wireSync) rfl,
    decode_encode (i := .wireEscaped 0xDF#8) rfl, decode_encode (i := .wireLiteral 0xE0#8) rfl⟩

/-! ### A step runs what the decoder reads -/

/-- A command that the host offers runs on the state in which the move is taken. -/
theorem step_of_offer {x : Transaction} (hn : nextTurn s = ⟨.offer x, u⟩) (hd : decode (.transaction x) = .instr i) :
    step s = exec i u := by
  simp only [step, hn, hd]

theorem portFree_of_ready (h : Ready s) : portFree s = true := by simp [portFree, h.2]

theorem nextTurn_of_command {x : Transaction} {rest : List HostMove} (hp : portFree s = true)
    (h : s.host = .command x :: rest) : nextTurn s = ⟨.offer x, { s with host := rest }⟩ := by
  simp [nextTurn, h, hp]

/-- Settles O50: a ready port is free, so the turn is the host's offer. -/
theorem stepRunsTheDecodedCommand : Obligations.StepRunsTheDecodedCommand := by
  intro s x rest i hr hhost hd
  exact step_of_offer (nextTurn_of_command (portFree_of_ready hr) hhost) hd

/-- While a decode waits and the host does too, the source's next answer is the turn (R124). -/
theorem nextTurn_of_sourceAnswer {a : SourceAnswer} {rest : List SourceAnswer} (ha : awaitsSource s = true)
    (hw : HostWaits s) (h : s.source = a :: rest) :
    nextTurn s = ⟨.sourceAnswers a, { s with source := rest }⟩ := by
  rw [nextTurn_of_awaitsSource ha hw]
  simp [answerTurn, ha, h]

/-- Settles O51: the turn is the source's byte, and the step reads it at the decoder's place. -/
theorem stepRunsTheCompletedWireSymbol : Obligations.StepRunsTheCompletedWireSymbol := by
  intro s w rest i ha hw hsrc hsym
  simp only [step, nextTurn_of_sourceAnswer ha hw hsrc, hsym]

/-! ### The canonical form of a wire image -/

/-- What may follow an ESC in an encoder's output: one of the two escaped bytes, less one (R64). -/
def EscapeOperand (e : Byte) : Prop := e = 0xDF#8 ∨ e = 0xCF#8

/-- The escape function by its two cases: an ESC with one of the two operands, or the byte itself (R115). -/
theorem esc_eq_pair_or_self (b : Byte) :
    (∃ e, EscapeOperand e ∧ esc b = [ESC, e]) ∨ (b ≠ SYNC ∧ b ≠ ESC ∧ esc b = [b]) := by
  rcases esc_cases b with ⟨rfl | rfl, he, -⟩ | hb
  · exact .inl ⟨_, .inl rfl, he⟩
  · exact .inl ⟨_, .inr rfl, he⟩
  · exact .inr hb

theorem EscapeOperand.ne_sync {e : Byte} (h : EscapeOperand e) : e ≠ SYNC := by rcases h with rfl | rfl <;> decide

theorem EscapeOperand.ne_esc {e : Byte} (h : EscapeOperand e) : e ≠ ESC := by rcases h with rfl | rfl <;> decide

theorem sync_notMem_esc (b : Byte) : SYNC ∉ esc b := by
  rcases esc_eq_pair_or_self b with ⟨e, he, hb⟩ | ⟨hs, -, hb⟩
  · have hse : SYNC ≠ ESC := by decide
    simp [hb, hse, he.ne_sync.symm]
  · simp [hb, hs.symm]

theorem sync_notMem_escaped (l : List Byte) : SYNC ∉ l.flatMap esc := by
  simp [sync_notMem_esc]

/-- In escaped bytes every ESC is followed by one of the two operands: both come from one byte, so no ESC stands last, and no
operand is itself an ESC. -/
theorem operand_follows_escape {l : List Byte} {k : Nat} (h : (l.flatMap esc)[k]? = some ESC) :
    ∃ e, EscapeOperand e ∧ (l.flatMap esc)[k + 1]? = some e := by
  induction l generalizing k with
  | nil => simp at h
  | cons b bs ih =>
    rw [List.flatMap_cons] at h ⊢
    rcases esc_eq_pair_or_self b with ⟨e, he, hb⟩ | ⟨-, hne, hb⟩ <;> rw [hb] at h ⊢
    · match k with
      | 0 => exact ⟨e, he, rfl⟩
      | 1 => exact absurd (Option.some.inj h) he.ne_esc
      | k + 2 => exact ih h
    · match k with
      | 0 => exact absurd (Option.some.inj h) hne
      | k + 1 => exact ih h

/-- Settles O22: `sync_notMem_escaped` and `operand_follows_escape` of the bytes after the sync. -/
theorem wireImageIsCanonical : Obligations.WireImageIsCanonical := by
  refine ⟨⟨rfl, rfl, fun b hs he => if_neg (not_or.mpr ⟨hs, he⟩)⟩, fun s n => ⟨_, rfl, sync_notMem_escaped _, ?_⟩⟩
  intro k hk
  obtain ⟨e, rfl | rfl, hnext⟩ := operand_follows_escape hk
  · exact .inl hnext
  · exact .inr hnext

/-! ### The commands of PACK at a ready port -/

theorem exec_payloadWr_of_fits {data : List Byte} (hr : Ready s) (h : data.length ≤ maxPayload s) :
    exec (.payloadWr data) s = .next (deliver ⟨.ok, .none⟩ (putPayload data s)) :=
  (accepted_of_ready hr _).trans (if_pos h)

theorem exec_payloadWr_of_too_large {data : List Byte} (hr : Ready s) (h : maxPayload s < data.length) :
    exec (.payloadWr data) s = .next (deliver ⟨.payloadTooLarge, .length data.length⟩ s) :=
  (accepted_of_ready hr _).trans (if_neg (Nat.not_le_of_lt h))

theorem exec_csumStamp_of_sizeOK (hr : Ready s) (h : sizeOK s (sizeField s)) :
    exec .csumStamp s = .next (deliver ⟨.ok, .none⟩ (stamp (sizeField s).toNat s)) :=
  (accepted_of_ready hr _).trans (if_pos h)

theorem exec_validate_of_valid (hr : Ready s) (h : frameValid s = true) :
    exec .validate s = .next (deliver ⟨.ok, .byte 0x01#8⟩ s) := by
  refine (accepted_of_ready hr _).trans ?_
  rw [h]
  rfl

theorem lastOk_deliver (x : Response) (s : State) : lastOk (deliver x s) = (x.status == .ok) := by
  simp [lastOk]

/-! ### The frame that PACK builds -/

theorem sizeField_putPayload (data : List Byte) (s : State) :
    sizeField (putPayload data s) = BitVec.ofNat 8 (data.length + 1) := byteAt_setByte_self _ _ _

/-- The size of a payload that fits is no number above 255: the size byte holds it whole (R96). -/
theorem sizeField_putPayload_toNat {data : List Byte} (h : data.length ≤ maxPayload s) :
    (sizeField (putPayload data s)).toNat = data.length + 1 := by
  have hmax : maxSize s ≤ 255 := Nat.min_le_left _ _
  have hpay := (maxPayload_lt s).1
  rw [sizeField_putPayload, BitVec.toNat_ofNat]
  omega

theorem sizeOK_putPayload {data : List Byte} (h : data.length ≤ maxPayload s) :
    sizeOK s (sizeField (putPayload data s)) := by
  have hpay := (maxPayload_lt s).1
  rw [sizeOK, sizeField_putPayload_toNat h]
  omega

theorem byteAt_putPayload_payload {data : List Byte} {k : Nat} {b : Byte} (h : data[k]? = some b) (s : State) :
    byteAt (putPayload data s) (3 + k) = b := by
  have hne : offSize ≠ 3 + k := by simp only [offSize]; omega
  rw [putPayload, byteAt_setByte_of_ne hne, byteAt_memWrite]
  simp [offPay, h]

/-- A legal frame is valid once it is stamped: the stamp changes neither the size nor the sum (R99, R109). -/
theorem frameValid_stamp (h : sizeOK s (sizeField s)) : frameValid (stamp (sizeField s).toNat s) = true := by
  have hz : sizeField (stamp (sizeField s).toNat s) = sizeField s := sizeField_stamp s h.1
  have hok : sizeOK (stamp (sizeField s).toNat s) (sizeField s) := h
  simp [frameValid, hz, hok, frameSum_stamp]

/-- The frame of a payload: the payload and its size written, then the checksum (R71, R96, R109). -/
def packedFrame (data : List Byte) (s : State) : State := stamp (data.length + 1) (putPayload data s)

theorem frameValid_packedFrame {data : List Byte} (h : data.length ≤ maxPayload s) :
    frameValid (packedFrame data s) = true := by
  have hvalid := frameValid_stamp (s := putPayload data s) (sizeOK_putPayload h)
  rwa [sizeField_putPayload_toNat h] at hvalid

theorem sizeField_packedFrame_toNat {data : List Byte} (h : data.length ≤ maxPayload s) :
    (sizeField (packedFrame data s)).toNat = data.length + 1 := by
  rw [packedFrame, sizeField_stamp _ (Nat.le_add_left 1 _), sizeField_putPayload_toNat h]

/-- The checksum stands above the payload. -/
theorem byteAt_packedFrame_payload {data : List Byte} {k : Nat} {b : Byte} (h : data[k]? = some b) (s : State) :
    byteAt (packedFrame data s) (3 + k) = b := by
  have hk : k < data.length := (List.getElem?_eq_some_iff.mp h).1
  have hne : offCk (data.length + 1) ≠ 3 + k := by simp only [offCk]; omega
  rw [packedFrame, stamp, byteAt_setByte_of_ne hne, byteAt_putPayload_payload h]

/-! ### The two steps of PACK -/

/-- The first step offers PAYLOAD_WR and leaves CSUM_STAMP to come (R71). -/
theorem step_of_pack {data : List Byte} (hr : Ready s) (hh : s.host = pseudoMoves s.cap (.pack data))
    (hd : data.length ≤ 65535) : step s = exec (.payloadWr data) { s with host := [.ifOk ⟨0x22#8, []⟩] } :=
  stepRunsTheDecodedCommand s _ _ _ hr hh (decode_encode (i := .payloadWr data) (decide_eq_true hd))

/-- The later command of a pseudo-command is offered after an OK and dropped after an error; the port is free after either
(R71). -/
theorem nextTurn_of_ifOk (x : Response) (y : Transaction) (u : State) (rest : List HostMove) :
    nextTurn (deliver x { u with host := .ifOk y :: rest }) =
      ⟨if x.status = .ok then .offer y else .quiet, deliver x { u with host := rest }⟩ := by
  have hp : portFree (deliver x { u with host := .ifOk y :: rest }) = true := rfl
  by_cases hx : x.status = .ok
  · simp [nextTurn, hp, lastOk_deliver, hx]
    rfl
  · simp [nextTurn, hp, lastOk_deliver, hx]
    rfl

/-- After an OK the second step stamps the frame. -/
theorem step_of_ifOk_csumStamp (d : RData) (hr : u.resetDone = true) (hz : sizeOK u (sizeField u)) :
    step (deliver ⟨.ok, d⟩ { u with host := [.ifOk ⟨0x22#8, []⟩] }) =
      .next (deliver ⟨.ok, .none⟩ (stamp (sizeField u).toNat (deliver ⟨.ok, d⟩ { u with host := [] }))) := by
  have hready : Ready (deliver ⟨.ok, d⟩ { u with host := [] }) := ⟨hr, rfl⟩
  exact (step_of_offer (nextTurn_of_ifOk _ _ u []) (decode_encode (i := .csumStamp) rfl)).trans
    (exec_csumStamp_of_sizeOK hready hz)

/-- After an error the second step drops the command and does nothing else. -/
theorem step_of_ifOk_of_error {x : Response} (y : Transaction) (u : State) (hx : x.status ≠ .ok) :
    step (deliver x { u with host := [.ifOk y] }) = .next (deliver x { u with host := [] }) := by
  have hturn := nextTurn_of_ifOk x y u []
  rw [if_neg hx] at hturn
  simp only [step, hturn]

/-- What PACK leaves when the payload fits: the packed frame, two responses, and no move of the host. -/
def afterPack (data : List Byte) (s : State) : State :=
  deliver ⟨.ok, .none⟩ (deliver ⟨.ok, .none⟩ { packedFrame data s with host := [] })

theorem afterPack_responses (data : List Byte) (s : State) :
    (afterPack data s).responses = s.responses ++ [⟨.ok, .none⟩, ⟨.ok, .none⟩] := List.append_assoc _ _ _

theorem byteAt_afterPack (data : List Byte) (s : State) (k : Nat) :
    byteAt (afterPack data s) k = byteAt (packedFrame data s) k := rfl

theorem frameValid_afterPack (data : List Byte) (s : State) :
    frameValid (afterPack data s) = frameValid (packedFrame data s) := rfl

theorem run_pack_of_fits {data : List Byte} (hr : Ready s) (hh : s.host = pseudoMoves s.cap (.pack data))
    (hd : data.length ≤ 65535) (hfit : data.length ≤ maxPayload s) :
    Host.Core.run Sys2Proof.core 2 s = .next (afterPack data s) := by
  have hwrite := (step_of_pack hr hh hd).trans (exec_payloadWr_of_fits hr hfit)
  have hstamp := step_of_ifOk_csumStamp (u := putPayload data s) .none hr.1 (sizeOK_putPayload hfit)
  rw [sizeField_putPayload_toNat hfit] at hstamp
  exact (run_succ_of_next hwrite).trans (run_one hstamp)

theorem run_pack_of_too_large {data : List Byte} (hr : Ready s) (hh : s.host = pseudoMoves s.cap (.pack data))
    (hd : data.length ≤ 65535) (hlarge : maxPayload s < data.length) :
    Host.Core.run Sys2Proof.core 2 s =
      .next (deliver ⟨.payloadTooLarge, .length data.length⟩ { s with host := [] }) := by
  have herr := (step_of_pack hr hh hd).trans (exec_payloadWr_of_too_large hr hlarge)
  exact (run_succ_of_next herr).trans (run_one (step_of_ifOk_of_error _ s nofun))

/-- Settles O49: the two runs; VALIDATE accepts the packed frame because its size is legal and its checksum is stamped. -/
theorem packBuildsAValidFrameOrStops : Obligations.PackBuildsAValidFrameOrStops := by
  intro s data hr hh hd
  constructor
  · intro hfit
    have hready : Ready (afterPack data s) := ⟨hr.1, rfl⟩
    have hvalid : frameValid (afterPack data s) = true :=
      (frameValid_afterPack data s).trans (frameValid_packedFrame hfit)
    refine ⟨_, _, run_pack_of_fits hr hh hd hfit, afterPack_responses data s, ?_, fun k b hk => ?_,
      exec_validate_of_valid hready hvalid, rfl⟩
    · rw [byteAt_afterPack]
      exact sizeField_packedFrame_toNat hfit
    · rw [byteAt_afterPack]
      exact byteAt_packedFrame_payload hk s
  · intro hlarge
    exact ⟨_, run_pack_of_too_large hr hh hd hlarge, rfl, fun _ => rfl, rfl⟩

end Sys2Proof.Machine
end

section
/-! The byte view (40_byteview.md R80 to R84): the byte-port commands in range and out of range, the range commands as the
single-byte ones over their offsets, and that only WRITE_FRAME hands bytes to the sink (44_stream.md R144). -/

namespace Sys2Proof.Machine

variable {s t u : State}

/-! ### What a write to the buffer leaves alone -/

theorem sameBytesOutside_setByte (i : Nat) (v : Byte) (s : State) : SameBytesOutside i 1 s (setByte i v s) :=
  fun _ hj => byteAt_setByte_of_ne (by omega) s v

/-- A list written from `off` on stands at its place. -/
theorem byteAt_memWrite_data {data : List Byte} {k : Nat} {b : Byte} (h : data[k]? = some b) (off : Nat) (s : State) :
    byteAt (memWrite off data s) (off + k) = b := by
  simp [byteAt_memWrite, h]

theorem sameBytesOutside_memWrite (off : Nat) (data : List Byte) (s : State) :
    SameBytesOutside off data.length s (memWrite off data s) := by
  intro j hj
  rw [byteAt_memWrite]
  rcases hj with hbelow | habove
  · rw [if_neg (by omega)]
  · rw [List.getElem?_eq_none (by omega), Option.getD_none, ite_self]

theorem BufferEdit.sameOutside (h : BufferEdit s u) : SameOutside s u := by
  induction h with
  | refl => exact ⟨rfl, rfl, rfl, rfl, rfl⟩
  | setByte _ _ _ ih => exact ih
  | memWrite _ _ ih => exact ih

/-- A response after writes to the buffer alone (R13, R28). -/
theorem BufferEdit.answersInOneStep (h : BufferEdit s u) (x : Response) : AnswersInOneStep x s (deliver x u) :=
  ⟨⟨rfl, congrArg (· ++ [x]) h.keepsAgents.responses⟩, h.sameDecoder, h.sameOutside, h.keepsAgents.block⟩

/-! ### The bounds check at a ready port -/

theorem accepted_withinBounds_of_le {off n : Nat} (hr : Ready s) (h : off + n ≤ s.cap.val) (r : Result) :
    accepted s (withinBounds s off n r) = r := (accepted_of_ready hr _).trans (if_pos h)

/-- Whatever a byte-port command would do in range, out of range it raises OUT_OF_BOUNDS and changes no byte (R80 to R83). -/
theorem accepted_withinBounds_of_lt {off n : Nat} (hr : Ready s) (h : s.cap.val < off + n) (r : Result) :
    ∃ t, accepted s (withinBounds s off n r) = .next t ∧
      AnswersInOneStep ⟨.outOfBounds, .bounds off n⟩ s t ∧ SameBytes s t :=
  ⟨_, (accepted_of_ready hr _).trans (if_neg (Nat.not_le_of_lt h)), BufferEdit.refl.answersInOneStep _,
    byteAt_deliver s _⟩

/-! ### The byte-port commands in range -/

theorem exec_bufRd_of_le {off : Half} (hr : Ready s) (h : off.toNat + 1 ≤ s.cap.val) :
    exec (.bufRd off) s = .next (deliver ⟨.ok, .byte (byteAt s off.toNat)⟩ s) := accepted_withinBounds_of_le hr h _

theorem exec_bufWr_of_le {off : Half} (hr : Ready s) (h : off.toNat + 1 ≤ s.cap.val) (v : Byte) :
    exec (.bufWr off v) s = .next (deliver ⟨.ok, .none⟩ (setByte off.toNat v s)) := accepted_withinBounds_of_le hr h _

theorem exec_bufRdRange_of_le {off len : Half} (hr : Ready s) (h : off.toNat + len.toNat ≤ s.cap.val) :
    exec (.bufRdRange off len) s = .next (deliver ⟨.ok, .bytes (memRead s off.toNat len.toNat)⟩ s) :=
  accepted_withinBounds_of_le hr h _

theorem exec_bufWrRange_of_le {off : Half} {data : List Byte} (hr : Ready s)
    (h : off.toNat + data.length ≤ s.cap.val) :
    exec (.bufWrRange off data) s = .next (deliver ⟨.ok, .none⟩ (memWrite off.toNat data s)) :=
  accepted_withinBounds_of_le hr h _

/-! ### The four commands -/

/-- Settles O1: in range the answer is the byte, out of range `accepted_withinBounds_of_lt`. -/
theorem bufRdAnswersByteWithinBounds : Obligations.BufRdAnswersByteWithinBounds := by
  intro s off hr
  refine ⟨decode_encode (i := .bufRd off) rfl, fun hin => ?_, fun hout => accepted_withinBounds_of_lt hr hout _⟩
  exact ⟨_, exec_bufRd_of_le hr hin, BufferEdit.refl.answersInOneStep _, byteAt_deliver s _⟩

/-- Settles O2: in range one `setByte`, out of range `accepted_withinBounds_of_lt`. -/
theorem bufWrWritesOneByteWithinBounds : Obligations.BufWrWritesOneByteWithinBounds := by
  intro s off v hr
  refine ⟨decode_encode (i := .bufWr off v) rfl, fun hin => ?_, fun hout => accepted_withinBounds_of_lt hr hout _⟩
  exact ⟨_, exec_bufWr_of_le hr hin v, (BufferEdit.refl.setByte hin v).answersInOneStep _,
    byteAt_setByte_self s off.toNat v, sameBytesOutside_setByte off.toNat v s⟩

/-- Settles O3: in range the answer is `memRead` of the range, out of range `accepted_withinBounds_of_lt`. -/
theorem bufRdRangeAnswersWholeRange : Obligations.BufRdRangeAnswersWholeRange := by
  intro s off len hr
  refine ⟨decode_encode (i := .bufRdRange off len) rfl, fun hin => ?_,
    fun hout => accepted_withinBounds_of_lt hr hout _⟩
  exact ⟨_, _, exec_bufRdRange_of_le hr hin, BufferEdit.refl.answersInOneStep _, byteAt_deliver s _,
    memRead_length s _ _, memRead_getElem? s _ _⟩

/-- Settles O4: in range one `memWrite`, out of range `accepted_withinBounds_of_lt`; LOAD is its command by definition. -/
theorem bufWrRangeIsAllOrNothing : Obligations.BufWrRangeIsAllOrNothing := by
  intro s off data hr
  refine ⟨fun hfits => decode_encode (i := .bufWrRange off data) (decide_eq_true hfits), fun hin => ?_,
    fun hout => accepted_withinBounds_of_lt hr hout _, rfl⟩
  exact ⟨_, exec_bufWrRange_of_le hr hin, (BufferEdit.refl.memWrite hin).answersInOneStep _,
    fun k b hk => byteAt_memWrite_data hk off.toNat s, sameBytesOutside_memWrite off.toNat data s⟩

/-! ### Range commands and single-byte commands -/

/-- Offsets up to CAP are exact in 16 bits: their sums do not wrap (R5, R45). -/
theorem toNat_add_of_le_cap {off k : Half} (h : off.toNat + k.toNat ≤ s.cap.val) :
    (off + k).toNat = off.toNat + k.toNat := by
  have hcap := s.cap.property.2
  exact BitVec.toNat_add_of_lt (by omega)

/-- A list written from `off` on is its head written there and then the rest one offset further on (R42). -/
theorem memWrite_cons (off : Nat) (b : Byte) (bs : List Byte) (s : State) :
    memWrite off (b :: bs) s = memWrite (off + 1) bs (setByte off b s) := rfl

/-- Settles O5: a write by `memWrite_cons`, a read by the elements of `memRead`; neither offset wraps. -/
theorem rangeCommandsAgreeWithSingleByteCommands : Obligations.RangeCommandsAgreeWithSingleByteCommands := by
  constructor
  · intro s off b bs hr hin
    have hfirst : off.toNat + 1 ≤ s.cap.val := by omega
    have hnext : (off + 1#16).toNat = off.toNat + 1 := toNat_add_of_le_cap (k := 1#16) hfirst
    have hready : Ready (deliver ⟨.ok, .none⟩ (setByte off.toNat b s)) := ⟨hr.1, rfl⟩
    have hrest : (off + 1#16).toNat + bs.length ≤ s.cap.val := by omega
    refine ⟨_, _, _, exec_bufWrRange_of_le hr hin, exec_bufWr_of_le hr hfirst b,
      exec_bufWrRange_of_le hready hrest, fun i => ?_⟩
    rw [byteAt_deliver, byteAt_deliver, memWrite_cons, hnext]
    rfl
  · intro s off len k hr hin hk
    have hbelow : off.toNat + k.toNat ≤ s.cap.val := by omega
    have hoff : (off + k).toNat = off.toNat + k.toNat := toNat_add_of_le_cap hbelow
    refine ⟨_, _, _, _, exec_bufRdRange_of_le hr hin, exec_bufRd_of_le hr (by omega), rfl, rfl, ?_⟩
    rw [memRead_getElem? s _ _ _ hk, hoff]

/-! ### The sink -/

/-- The decoder's Store hands nothing to the sink and takes no answer or move. -/
theorem sameOutside_of_store {v : Byte} (h : store v s = .next t) : SameOutside s t := by
  by_cases hlt : s.didx < s.cap.val
  · rcases store_cases s v hlt with ⟨-, -, hr⟩ | ⟨-, -, -, hr⟩ | ⟨-, -, hr⟩
    all_goals
      cases hr.symm.trans h
      exact ⟨rfl, rfl, rfl, rfl, rfl⟩
  · cases (store_of_not_lt s v hlt).symm.trans h

/-- Nor does any row of R123 for a byte. -/
theorem sameOutside_of_takeByte {w : Byte} (h : takeByte w s = .next t) : SameOutside s t := by
  cases ha : awaitsSource s with
  | false => cases (takeByte_of_not_awaits s w ha).symm.trans h
  | true =>
    rcases takeByte_cases s w ha with ⟨-, -, hr⟩ | ⟨-, -, hr⟩ | ⟨-, -, hr⟩ | ⟨-, -, hr⟩ | ⟨-, hr⟩
    · cases hr.symm.trans h
      exact ⟨rfl, rfl, rfl, rfl, rfl⟩
    · cases hr.symm.trans h
      exact ⟨rfl, rfl, rfl, rfl, rfl⟩
    · cases hr.symm.trans h
      exact ⟨rfl, rfl, rfl, rfl, rfl⟩
    · exact sameOutside_of_store (hr.symm.trans h)
    · exact sameOutside_of_store (hr.symm.trans h)

theorem SameOutside.trans (h : SameOutside s t) (h' : SameOutside t u) : SameOutside s u := by
  obtain ⟨hhost, hsource, hsink, hgot, hdraws⟩ := h
  obtain ⟨hhost', hsource', hsink', hgot', hdraws'⟩ := h'
  exact ⟨hhost'.trans hhost, hsource'.trans hsource, hsink'.trans hsink, hgot'.trans hgot, hdraws'.trans hdraws⟩

/-- Two wire bytes, one after the other, or the first alone where it ends the decode (R134). -/
theorem thenTake_cases {e : Byte} {r : Result} (h : thenTake e r = .next t) :
    ∃ u, r = .next u ∧ (takeByte e u = .next t ∨ t = u) := by
  cases r with
  | next u =>
    simp only [thenTake] at h
    split at h
    · exact ⟨u, rfl, .inl h⟩
    · cases h
      exact ⟨_, rfl, .inr rfl⟩
  | fault f => cases h
  | refused w => cases h

theorem sameOutside_of_wireEscaped {e : Byte} (h : execWireEscaped e s = .next t) : SameOutside s t := by
  unfold execWireEscaped at h
  split at h
  · exact sameOutside_of_takeByte h
  · obtain ⟨u, hesc, hnext | rfl⟩ := thenTake_cases h
    · exact (sameOutside_of_takeByte hesc).trans (sameOutside_of_takeByte hnext)
    · exact sameOutside_of_takeByte hesc

/-- Of the cases of a command only the start of WRITE_FRAME's wait touches an outside agent, and it hands one byte list to the
sink (R144). -/
theorem exec_command_sameOutside_or_startWrite {i : Instr} {y : Transaction} (he : encode i = .transaction y)
    (h : exec i s = .next t) : SameOutside s t ∨ i = .writeFrame ∧ ∃ n, t = startWrite n s := by
  rcases exec_command_cases he h with ⟨u, x, hu, rfl⟩ | ⟨-, rfl⟩ | ⟨-, rfl⟩ | ⟨hi, -, rfl⟩
  · exact .inl hu.sameOutside
  · exact .inl ⟨rfl, rfl, rfl, rfl, rfl⟩
  · exact .inl ⟨rfl, rfl, rfl, rfl, rfl⟩
  · exact .inr ⟨hi, _, rfl⟩

/-- An instruction, command or wire symbol, leaves the outside agents as they are or is the start of WRITE_FRAME's wait. -/
theorem exec_sameOutside_or_startWrite {i : Instr} (h : exec i s = .next t) :
    SameOutside s t ∨ i = .writeFrame ∧ ∃ n, t = startWrite n s := by
  cases i with
  | wireSync => exact .inl (sameOutside_of_takeByte (w := SYNC) h)
  | wireEscaped e => exact .inl (sameOutside_of_wireEscaped (e := e) h)
  | wireLiteral w => exact .inl (sameOutside_of_takeByte (w := w) h)
  | bufRd | bufWr | bufRdRange | bufWrRange | sizeRd | sizeWr | payloadRd | payloadWr | csumRd | csumCalc | csumStamp
  | validate | encode | decode | readFrame | writeFrame => exact exec_command_sameOutside_or_startWrite rfl h

/-- Settles O47: the one instruction that does not leave the outside agents as they are is WRITE_FRAME, and the start of its
wait leaves the sink's answers and the host's moves (`startWrite_keepsAgents`). -/
theorem onlyWriteFrameUsesTheSink : Obligations.OnlyWriteFrameUsesTheSink := by
  intro s t i h
  rcases exec_sameOutside_or_startWrite h with ⟨hhost, -, hsink, hgot, -⟩ | ⟨hi, n, rfl⟩
  · exact ⟨hsink, hhost, fun _ => hgot⟩
  · have hkeep := startWrite_keepsAgents n s
    exact ⟨hkeep.sink, hkeep.host, fun hne => absurd hi hne⟩

end Sys2Proof.Machine
end

section
/-! The packet fields (41_packet.md R90 to R100): the size and payload commands, the check of the size field that every layout
command makes first, and VALIDATE, whose verdict is the one READ_FRAME gives. -/

namespace Sys2Proof.Machine

variable {s t u : State}

/-! ### The check of the size field at a ready port -/

theorem accepted_withLayout_of_sizeOK (hr : Ready s) (h : sizeOK s (sizeField s)) (k : Nat → Result) :
    accepted s (withLayout s k) = k (sizeField s).toNat := (accepted_of_ready hr _).trans (if_pos h)

/-- Whatever a layout command would do with a legal size, an illegal one raises SIZE_ERROR and changes no byte (R92). -/
theorem accepted_withLayout_of_not_sizeOK (hr : Ready s) (h : ¬ sizeOK s (sizeField s)) (k : Nat → Result) :
    ∃ t, accepted s (withLayout s k) = .next t ∧
      AnswersInOneStep ⟨.sizeError, .byte (sizeField s)⟩ s t ∧ SameBytes s t :=
  ⟨_, (accepted_of_ready hr _).trans (if_neg h), BufferEdit.refl.answersInOneStep _, byteAt_deliver s _⟩

/-- Settles O11: each of the six commands makes the check of `accepted_withLayout_of_not_sizeOK` first. -/
theorem layoutCommandsRaiseSizeError : Obligations.LayoutCommandsRaiseSizeError := by
  intro s i hr hz hi
  rcases hi with rfl | rfl | rfl | rfl | rfl | rfl
  all_goals exact accepted_withLayout_of_not_sizeOK hr hz _

/-! ### The size field -/

theorem exec_sizeRd_of_ready (hr : Ready s) :
    exec .sizeRd s = .next (deliver ⟨.ok, .byte (sizeField s)⟩ s) := accepted_of_ready hr _

theorem exec_sizeWr_of_ready (hr : Ready s) (n : Byte) :
    exec (.sizeWr n) s = .next (deliver ⟨.ok, .none⟩ (setByte offSize n s)) := accepted_of_ready hr _

/-- Settles O6: the answer is `sizeField`, and no check comes before it. -/
theorem sizeRdAnswersSizeField : Obligations.SizeRdAnswersSizeField := by
  intro s hr
  exact ⟨decode_encode (i := .sizeRd) rfl, _, exec_sizeRd_of_ready hr, BufferEdit.refl.answersInOneStep _,
    byteAt_deliver s _⟩

/-- Settles O7: one `setByte` at offset 2, which lies below every CAP. -/
theorem sizeWrWritesSizeField : Obligations.SizeWrWritesSizeField := by
  intro s n hr
  exact ⟨decode_encode (i := .sizeWr n) rfl, _, exec_sizeWr_of_ready hr n,
    (BufferEdit.refl.setByte (offSize_lt_cap s) n).answersInOneStep _, byteAt_setByte_self s offSize n,
    sameBytesOutside_setByte offSize n s⟩

/-! ### The payload -/

theorem exec_payloadRd_of_sizeOK (hr : Ready s) (h : sizeOK s (sizeField s)) :
    exec .payloadRd s = .next (deliver ⟨.ok, .bytes (memRead s offPay ((sizeField s).toNat - 1))⟩ s) :=
  accepted_withLayout_of_sizeOK hr h _

/-- Settles O8: with a legal size the answer is `memRead` of the payload, else `accepted_withLayout_of_not_sizeOK`. -/
theorem payloadRdAnswersPayload : Obligations.PayloadRdAnswersPayload := by
  intro s hr
  refine ⟨decode_encode (i := .payloadRd) rfl, fun hz => ?_, fun hz => accepted_withLayout_of_not_sizeOK hr hz _⟩
  exact ⟨_, _, exec_payloadRd_of_sizeOK hr hz, BufferEdit.refl.answersInOneStep _, byteAt_deliver s _,
    memRead_length s _ _, memRead_getElem? s _ _⟩

/-- The size byte and the payload stand side by side, and PAYLOAD_WR writes nothing but these: not the checksum (R96). -/
theorem sameBytesOutside_putPayload (data : List Byte) (s : State) :
    SameBytesOutside 2 (data.length + 1) s (putPayload data s) := by
  intro j hj
  have hsize : byteAt (putPayload data s) j = byteAt (memWrite offPay data s) j :=
    sameBytesOutside_setByte offSize _ _ j (by simp only [offSize]; omega)
  have hpay : byteAt (memWrite offPay data s) j = byteAt s j :=
    sameBytesOutside_memWrite offPay data s j (by simp only [offPay]; omega)
  exact hsize.trans hpay

/-- Settles O9: a payload that fits is `putPayload`, one that does not raises an error before any write (R97). -/
theorem payloadWrWritesPayloadAndSize : Obligations.PayloadWrWritesPayloadAndSize := by
  intro s data hr
  refine ⟨fun hlen => decode_encode (i := .payloadWr data) (decide_eq_true hlen), fun hfit => ?_, fun hlarge => ?_⟩
  · exact ⟨_, exec_payloadWr_of_fits hr hfit, (bufferEdit_putPayload hfit).answersInOneStep _,
      fun k b hk => byteAt_putPayload_payload hk s, sizeField_putPayload_toNat hfit,
      sameBytesOutside_putPayload data s⟩
  · exact ⟨_, exec_payloadWr_of_too_large hr hlarge, BufferEdit.refl.answersInOneStep _, byteAt_deliver s _⟩

/-- Settles O10: PAYLOAD_WR leaves the port ready, and the size byte holds the length plus 1 whole. -/
theorem sizeRdAfterPayloadWrIsLengthPlusOne : Obligations.SizeRdAfterPayloadWrIsLengthPlusOne := by
  intro s data hr hfit
  have hready : Ready (deliver ⟨.ok, .none⟩ (putPayload data s)) := ⟨hr.1, rfl⟩
  exact ⟨_, _, _, exec_payloadWr_of_fits hr hfit, exec_sizeRd_of_ready hready, List.append_assoc _ _ _,
    sizeField_putPayload_toNat hfit⟩

/-! ### The verdict of VALIDATE -/

/-- The verdict in the terms of R99. -/
theorem frameValid_iff (s : State) : frameValid s = true ↔
    sizeOK s (sizeField s) ∧ storedSum s (sizeField s).toNat = frameSum s (sizeField s).toNat := by
  simp [frameValid]

theorem exec_validate_of_invalid (hr : Ready s) (h : frameValid s = false) :
    exec .validate s = .next (deliver ⟨.ok, .byte 0x00#8⟩ s) := by
  refine (accepted_of_ready hr _).trans ?_
  rw [h]
  rfl

/-- Settles O12: the two verdicts, told apart by `frameValid_iff`. -/
theorem validateAnswersSizeAndChecksumTest : Obligations.ValidateAnswersSizeAndChecksumTest := by
  intro s hr
  refine ⟨decode_encode (i := .validate) rfl, ?_⟩
  cases hv : frameValid s with
  | true =>
    exact ⟨_, _, exec_validate_of_valid hr hv, BufferEdit.refl.answersInOneStep _, byteAt_deliver s _, fun _ => rfl,
      fun hne => absurd ((frameValid_iff s).mp hv) hne⟩
  | false =>
    have hne : ¬ frameValid s = true := by simp [hv]
    exact ⟨_, _, exec_validate_of_invalid hr hv, BufferEdit.refl.answersInOneStep _, byteAt_deliver s _,
      fun hok => absurd ((frameValid_iff s).mpr hok) hne, fun _ => rfl⟩

/-! ### The verdict of READ_FRAME -/

/-- What a response that ends READ_FRAME says of the buffer: OK that VALIDATE finds the frame valid, CHECKSUM_MISMATCH that it
does not; any other error says nothing of it (R100). -/
structure VerdictHolds (x : Response) (u : State) : Prop where
  ok : x.status = .ok → frameValid u = true
  mismatch : x.status = .checksumMismatch → frameValid u = false

theorem verdictHolds_of_other {x : Response} (hok : x.status ≠ .ok) (hne : x.status ≠ .checksumMismatch) :
    VerdictHolds x u := ⟨fun h => absurd h hok, fun h => absurd h hne⟩

/-- With a legal size, READ_FRAME's check of the checksum is all that is left of VALIDATE's (R99, R140). -/
theorem verdictHolds_completionResponse (hz : sizeOK u (sizeField u)) :
    VerdictHolds (completionResponse (.busy .readFrame) u) u := by
  by_cases hsum : storedSum u (sizeField u).toNat = frameSum u (sizeField u).toNat
  · have hx : completionResponse (.busy .readFrame) u = ⟨.ok, .none⟩ := if_neg fun h => h.2 hsum
    rw [hx]
    exact ⟨fun _ => (frameValid_iff u).mpr ⟨hz, hsum⟩, nofun⟩
  · have hx : (completionResponse (.busy .readFrame) u).status = .checksumMismatch :=
      congrArg Response.status (if_pos ⟨rfl, hsum⟩)
    have hinvalid : frameValid u = false := by
      rw [Bool.eq_false_iff]
      exact fun hv => hsum ((frameValid_iff u).mp hv).2
    exact ⟨fun hok => absurd (hx.symm.trans hok) nofun, fun _ => hinvalid⟩

/-- A step of READ_FRAME goes on without a response, or ends the command with a true verdict. -/
inductive VerdictStep (s : State) : State → Prop where
  | goesOn {t : State} (h : t.responses = s.responses) : VerdictStep s t
  | ends {u : State} {x : Response} (hreset : u.resetDone = s.resetDone) (hresp : u.responses = s.responses)
      (hx : VerdictHolds x u) : VerdictStep s (deliver x u)

/-- Store completes a frame above the size byte, which the invariant says is legal (R129, R130). -/
theorem store_verdictStep {v : Byte} (hf : DecoderInv.InFrame s) (hp : s.port = .busy .readFrame)
    (h : store v s = .next t) : VerdictStep s t := by
  rcases store_cases s v (didx_lt_cap_of_inFrame hf) with ⟨-, -, hr⟩ | ⟨-, h3, -, hr⟩ | ⟨-, -, hr⟩
  · cases hr.symm.trans h
    exact .ends rfl rfl (verdictHolds_of_other nofun nofun)
  · cases hr.symm.trans h
    obtain ⟨-, -, -, -, hbody⟩ := hf
    have hsize : sizeField (setByte s.didx v s) = sizeField s :=
      byteAt_setByte_of_ne (by simp only [offSize]; omega) s v
    have hz : sizeOK (setByte s.didx v s) (sizeField (setByte s.didx v s)) := by
      rw [hsize]
      exact (hbody h3).1
    have hverdict := verdictHolds_completionResponse hz
    rw [hp]
    exact .ends rfl rfl ⟨hverdict.ok, hverdict.mismatch⟩
  · cases hr.symm.trans h
    exact .goesOn rfl

theorem takeByte_verdictStep {w : Byte} (hinv : Inv s) (ha : awaitsSource s = true) (hp : s.port = .busy .readFrame)
    (h : takeByte w s = .next t) : VerdictStep s t := by
  have hreset := ((awaitsSource_iff s).mp ha).1
  rcases takeByte_cases s w ha with ⟨-, -, hr⟩ | ⟨-, -, hr⟩ | ⟨-, -, hr⟩ | ⟨hd, -, hr⟩ | ⟨hd, hr⟩
  · cases hr.symm.trans h
    exact .goesOn rfl
  · cases hr.symm.trans h
    exact .ends rfl rfl (verdictHolds_of_other nofun nofun)
  · cases hr.symm.trans h
    exact .goesOn rfl
  · exact store_verdictStep (hinv.inFrame hreset (.inl hd)) hp (hr.symm.trans h)
  · exact store_verdictStep (hinv.inFrame hreset (.inr hd)) hp (hr.symm.trans h)

/-- By the invariant the decoder is not idle while a decode is in progress (R26, R28). -/
theorem Inv.awaitsSource_of_decoding (h : Inv s) (hr : s.resetDone = true) (hd : Decoding s) :
    awaitsSource s = true := by
  refine (awaitsSource_iff s).mpr ⟨hr, hd, fun hidle => ?_⟩
  have hdec := (h.2.2 hr).1
  simp only [DecoderInv, hidle] at hdec
  exact hdec.2 hd

/-- Only a completed frame is answered OK or CHECKSUM_MISMATCH: EOF, IOERR and a silent source are not. -/
theorem step_verdictStep (hinv : Inv s) (hw : HostWaits s) (hr : s.resetDone = true) (hp : s.port = .busy .readFrame)
    (h : step s = .next t) : VerdictStep s t := by
  have ha : awaitsSource s = true := hinv.awaitsSource_of_decoding hr (.inr hp)
  rcases step_cases_of_awaitsSource ha hw h with ⟨-, rfl⟩ | ⟨w, src, -, hx⟩ | ⟨src, -, rfl⟩ | ⟨src, -, rfl⟩
  · exact .goesOn rfl
  · have hinv' : Inv { s with source := src } := (inv_agents s.host src s.sink).mpr hinv
    cases takeByte_verdictStep hinv' ha hp hx with
    | goesOn hresp => exact .goesOn hresp
    | ends hreset hresp hverdict => exact .ends hreset hresp hverdict
  · exact .ends rfl rfl (verdictHolds_of_other nofun nofun)
  · exact .ends rfl rfl (verdictHolds_of_other nofun nofun)

/-- A response read off the list of responses is the verdict of the step that gave it, and the port is ready for VALIDATE. -/
theorem VerdictStep.ready_and_verdict {x : Response} (h : VerdictStep s t) (hr : s.resetDone = true)
    (hresp : t.responses = s.responses ++ [x]) : Ready t ∧ VerdictHolds x t := by
  cases h with
  | goesOn hsame =>
    rw [hsame] at hresp
    simp at hresp
  | ends hreset hresp' hverdict =>
    rw [deliver_responses, hresp', List.append_cancel_left_eq, List.cons.injEq] at hresp
    obtain ⟨rfl, -⟩ := hresp
    exact ⟨⟨hreset.trans hr, rfl⟩, hverdict.ok, hverdict.mismatch⟩

/-- Settles O36: the verdict that the step gives is the one VALIDATE gives of the same buffer. -/
theorem readFrameVerdictIsValidateVerdict : Obligations.ReadFrameVerdictIsValidateVerdict := by
  intro s t hinv hw hr hp h
  have hstep : VerdictStep s t := step_verdictStep hinv hw hr hp h
  constructor
  · intro hresp
    obtain ⟨hready, hverdict⟩ := hstep.ready_and_verdict hr hresp
    exact ⟨_, exec_validate_of_valid hready (hverdict.ok rfl), rfl⟩
  · intro a b hresp
    obtain ⟨hready, hverdict⟩ := hstep.ready_and_verdict hr hresp
    exact ⟨_, exec_validate_of_invalid hready (hverdict.mismatch rfl), rfl⟩

end Sys2Proof.Machine
end

section
/-! The checksum (42_checksum.md R105 to R112): what Sum is as a number and how it follows its bytes, the three checksum
commands, and the frame that CSUM_STAMP leaves. -/

namespace Sys2Proof.Machine

variable {s t : State}

/-! ### Sum -/

/-- Settles O13: each further byte adds to the sum and the carry out of 8 bits is dropped. -/
theorem frameSumIsSumModulo256 : Obligations.FrameSumIsSumModulo256 := by
  intro s n
  induction n with
  | zero =>
    have hbyte : (byteAt s 1).toNat % 256 = (byteAt s 1).toNat := Nat.mod_eq_of_lt (byteAt s 1).isLt
    simp [frameSum_zero, hbyte]
  | succ n ih =>
    have hoff : 1 + (n + 1) = 2 + n := by omega
    rw [frameSum_succ, BitVec.toNat_add, ih, List.range_succ (n := n + 1), List.map_append, List.sum_append,
      List.map_singleton, List.sum_singleton, hoff, Nat.mod_add_mod]

/-- A write at a covered offset moves the sum by the difference between the new byte and the old one (R111). -/
theorem frameSum_setByte_of_covered {n i : Nat} (hlo : 1 ≤ i) (hhi : i ≤ 1 + n) (s : State) (v : Byte) :
    frameSum (setByte i v s) n = frameSum s n + (v - byteAt s i) := by
  induction n with
  | zero =>
    obtain rfl : i = 1 := by omega
    rw [frameSum_zero, frameSum_zero, byteAt_setByte_self, add_sub_cancel]
  | succ n ih =>
    rw [frameSum_succ, frameSum_succ]
    by_cases hlast : i = 2 + n
    · subst hlast
      have hrest : frameSum (setByte (2 + n) v s) n = frameSum s n :=
        frameSum_congr fun j _ hj => byteAt_setByte_of_ne (by omega) s v
      rw [hrest, byteAt_setByte_self, add_assoc, add_sub_cancel]
    · rw [ih (by omega), byteAt_setByte_of_ne hlast, add_right_comm]

/-- Settles O18: the sum moves by a difference that is 0 only for the old byte. -/
theorem oneChangedByteChangesSum : Obligations.OneChangedByteChangesSum := by
  intro s n i v hlo hhi
  have hmoved := frameSum_setByte_of_covered hlo hhi s v
  refine ⟨hmoved, fun hne hsame => hne ?_⟩
  rw [hmoved, add_eq_left] at hsame
  exact sub_eq_zero.mp hsame

/-- The sum does not see the order of its bytes (R111). -/
theorem sumBytes_perm {l m : List Byte} (h : l.Perm m) : sumBytes l = sumBytes m :=
  h.foldl_eq' (fun a _ b _ z => add_right_comm z a b) 0x00#8

/-- Settles O19: the covered bytes are a list that `sumBytes` adds up. -/
theorem permutedBytesKeepSum : Obligations.PermutedBytesKeepSum := fun _ _ _ h => sumBytes_perm h

/-! ### The three commands -/

theorem exec_csumRd_of_sizeOK (hr : Ready s) (h : sizeOK s (sizeField s)) :
    exec .csumRd s = .next (deliver ⟨.ok, .byte (storedSum s (sizeField s).toNat)⟩ s) :=
  accepted_withLayout_of_sizeOK hr h _

theorem exec_csumCalc_of_sizeOK (hr : Ready s) (h : sizeOK s (sizeField s)) :
    exec .csumCalc s = .next (deliver ⟨.ok, .byte (frameSum s (sizeField s).toNat)⟩ s) :=
  accepted_withLayout_of_sizeOK hr h _

/-- Settles O14: with a legal size the answer is `storedSum`, else `accepted_withLayout_of_not_sizeOK`. -/
theorem csumRdAnswersStoredChecksum : Obligations.CsumRdAnswersStoredChecksum := by
  intro s hr
  refine ⟨decode_encode (i := .csumRd) rfl, fun hz => ?_, fun hz => accepted_withLayout_of_not_sizeOK hr hz _⟩
  exact ⟨_, exec_csumRd_of_sizeOK hr hz, BufferEdit.refl.answersInOneStep _, byteAt_deliver s _⟩

/-- Settles O15: with a legal size the answer is `frameSum`, whose value as a number is O13. -/
theorem csumCalcAnswersSum : Obligations.CsumCalcAnswersSum := by
  intro s hr
  refine ⟨decode_encode (i := .csumCalc) rfl, fun hz => ?_, fun hz => accepted_withLayout_of_not_sizeOK hr hz _⟩
  exact ⟨_, _, exec_csumCalc_of_sizeOK hr hz, BufferEdit.refl.answersInOneStep _, byteAt_deliver s _,
    frameSumIsSumModulo256 s _⟩

/-- Settles O16: with a legal size one `stamp`, a write above the size field and above the bytes that the sum reads. -/
theorem csumStampStoresSum : Obligations.CsumStampStoresSum := by
  intro s hr
  refine ⟨decode_encode (i := .csumStamp) rfl, fun hz => ?_, fun hz => accepted_withLayout_of_not_sizeOK hr hz _⟩
  exact ⟨_, exec_csumStamp_of_sizeOK hr hz, (bufferEdit_stamp hz).answersInOneStep _, storedSum_stamp s _,
    sameBytesOutside_setByte _ _ s, sizeField_stamp s hz.1, frameSum_stamp s _⟩

/-! ### The stamped frame -/

/-- A byte written over itself changes nothing. -/
theorem sameBytes_setByte_byteAt (i : Nat) (s : State) : SameBytes s (setByte i (byteAt s i) s) := by
  intro j
  rw [byteAt_setByte]
  split
  · next hij => rw [hij]
  · rfl

/-- A stamp where the checksum is already right changes nothing (R110). -/
theorem sameBytes_stamp {n : Nat} (h : storedSum s n = frameSum s n) : SameBytes s (stamp n s) := by
  rw [stamp, ← h]
  exact sameBytes_setByte_byteAt (offCk n) s

/-- Whether a frame is valid is read from CAP and the offsets 1 .. 2 + s alone (R99). -/
theorem frameValid_congr (hcap : t.cap = s.cap)
    (h : ∀ i, 1 ≤ i → i ≤ 2 + (sizeField s).toNat → byteAt t i = byteAt s i) : frameValid t = frameValid s := by
  have hsize : sizeField t = sizeField s := h offSize (by simp [offSize]) (Nat.le_add_right _ _)
  have hstored : storedSum t (sizeField s).toNat = storedSum s (sizeField s).toNat :=
    h _ (by simp only [offCk]; omega) le_rfl
  have hsum : frameSum t (sizeField s).toNat = frameSum s (sizeField s).toNat :=
    frameSum_congr fun i hlo hhi => h i hlo (by omega)
  simp only [frameValid, sizeOK, hsize, hstored, hsum, maxSize_congr hcap]

/-- Settles O17: the stamped frame is valid, it stays so while its bytes stay, and in a valid frame the stored checksum is
the computed one. -/
theorem stampedFrameIsValid : Obligations.StampedFrameIsValid := by
  intro s hr hz
  refine ⟨_, exec_csumStamp_of_sizeOK hr hz, rfl, ⟨hr.1, rfl⟩, fun u hu hcap hbytes => ?_⟩
  have hsize : sizeField (stamp (sizeField s).toNat s) = sizeField s := sizeField_stamp s hz.1
  have hkept : frameValid u = frameValid (stamp (sizeField s).toNat s) :=
    frameValid_congr hcap (by rw [hsize]; exact hbytes)
  have hvalid : frameValid u = true := hkept.trans (frameValid_stamp hz)
  obtain ⟨hzu, hfresh⟩ := (frameValid_iff u).mp hvalid
  have hrd := exec_csumRd_of_sizeOK hu hzu
  rw [hfresh] at hrd
  exact ⟨_, _, _, _, _, exec_validate_of_valid hu hvalid, rfl, hrd, rfl, exec_csumCalc_of_sizeOK hu hzu, rfl,
    exec_csumStamp_of_sizeOK hu hzu, sameBytes_stamp hfresh⟩

end Sys2Proof.Machine
end

section
/-! The transcoder (43_transcoder.md R115 to R134): the escape codec, ENCODE and its wire image, the rows of the decoder's
table, and a whole DECODE as the inverse of the wire image. -/

namespace Sys2Proof.Machine

variable {s t : State}

/-! ### The escape codec -/

/-- Escaping subtracts 1 from the two escaped bytes, and `unesc` adds it again (R115, R117). -/
theorem unesc_sub_one (b : Byte) : unesc (b - 1#8) = b := sub_add_cancel b 1#8

theorem unesc_toNat (e : Byte) : (unesc e).toNat = (e.toNat + 1) % 256 := BitVec.toNat_add e 1#8

/-- Settles O20: the two branches of `esc`, and `unesc_sub_one`. -/
theorem unescapeUndoesEscape : Obligations.UnescapeUndoesEscape := by
  intro b
  refine ⟨fun hb => ⟨if_pos hb, unesc_sub_one b⟩, fun hs he => if_neg (not_or.mpr ⟨hs, he⟩), unesc_toNat b⟩

/-! ### The wire image -/

/-- The bytes of a frame of size `n` after the sync: the offsets 1 .. 2 + n (R22). -/
def frameBytes (s : State) (n : Nat) : List Byte := memRead s offAddr (n + 2)

@[simp] theorem frameBytes_length (s : State) (n : Nat) : (frameBytes s n).length = n + 2 := memRead_length s offAddr _

theorem frameBytes_getElem? (s : State) {n k : Nat} (h : k < n + 2) :
    (frameBytes s n)[k]? = some (byteAt s (1 + k)) := memRead_getElem? s offAddr (n + 2) k h

theorem wireImage_eq (s : State) (n : Nat) : wireImage s n = SYNC :: (frameBytes s n).flatMap esc := rfl

/-- R118 with the escaped bytes written out offset by offset. -/
theorem wireImage_eq_flatten (s : State) (n : Nat) :
    wireImage s n = SYNC :: ((List.range (n + 2)).map fun k => esc (byteAt s (1 + k))).flatten := by
  simp [wireImage, memRead, List.flatMap_def, Function.comp_def]

/-- The bytes that take two wire bytes (R115). -/
def isEscaped (b : Byte) : Bool := b == SYNC || b == ESC

theorem esc_length (b : Byte) : (esc b).length = 1 + (if isEscaped b then 1 else 0) := by
  rcases esc_cases b with ⟨hb, he, -⟩ | ⟨hs, hd, he⟩
  · have hesc : isEscaped b = true := by simpa [isEscaped] using hb
    rw [he, hesc]
    rfl
  · have hesc : isEscaped b = false := by simp [isEscaped, hs, hd]
    rw [he, hesc]
    rfl

/-- Every escaped byte adds one to the length (R120). -/
theorem escaped_length (l : List Byte) : (l.flatMap esc).length = l.length + (l.filter isEscaped).length := by
  induction l with
  | nil => rfl
  | cons b bs ih =>
    rw [List.flatMap_cons, List.length_append, ih, esc_length, List.filter_cons, List.length_cons]
    split
    · rw [List.length_cons]
      omega
    · omega

/-- Settles O23: `escaped_length` of the bytes after the sync; at most all of them are escaped (R66). -/
theorem wireImageLengthCountsEscapes : Obligations.WireImageLengthCountsEscapes := by
  intro s n
  have hlen : (wireImage s n).length = 3 + n + ((frameBytes s n).filter isEscaped).length := by
    rw [wireImage_eq, List.length_cons, escaped_length, frameBytes_length]
    omega
  have hmost : ((frameBytes s n).filter isEscaped).length ≤ n + 2 :=
    (List.length_filter_le _ _).trans_eq (frameBytes_length s n)
  refine ⟨?_, by omega⟩
  rw [hlen, frameBytes, memRead, List.filter_map, List.length_map]
  rfl

/-! ### ENCODE -/

theorem exec_encode_of_sizeOK (hr : Ready s) (h : sizeOK s (sizeField s)) :
    exec .encode s = .next (deliver ⟨.ok, .bytes (wireImage s (sizeField s).toNat)⟩ s) :=
  accepted_withLayout_of_sizeOK hr h _

/-- Settles O21: with a legal size the answer is `wireImage`, else `accepted_withLayout_of_not_sizeOK`. -/
theorem encodeAnswersWireImage : Obligations.EncodeAnswersWireImage := by
  intro s hr
  refine ⟨decode_encode (i := .encode) rfl, fun hz => ?_, fun hz => accepted_withLayout_of_not_sizeOK hr hz _⟩
  refine ⟨_, exec_encode_of_sizeOK hr hz, ?_, byteAt_deliver s _⟩
  rw [wireImage_eq_flatten]
  exact BufferEdit.refl.answersInOneStep _

/-- Settles O24: the check reads CAP and the size byte, and the image the bytes of the frame (`wireImage_congr`). -/
theorem encodeReadsTheFrameAlone : Obligations.EncodeReadsTheFrameAlone := by
  intro s u hs hu hcap hresp hsize hframe
  have hfield : sizeField s = sizeField u := hsize
  have hlegal : sizeOK s (sizeField s) ↔ sizeOK u (sizeField u) := by
    rw [hfield, sizeOK, sizeOK, maxSize_congr hcap]
  by_cases hz : sizeOK s (sizeField s)
  · refine ⟨_, _, exec_encode_of_sizeOK hs hz, exec_encode_of_sizeOK hu (hlegal.mp hz), ?_⟩
    have himage : wireImage s (sizeField s).toNat = wireImage u (sizeField s).toNat := wireImage_congr hframe
    rw [deliver_responses, deliver_responses, himage, hfield, hresp]
  · obtain ⟨t, ht, ⟨⟨-, htr⟩, -⟩, -⟩ := accepted_withLayout_of_not_sizeOK hs hz _
    obtain ⟨v, hv, ⟨⟨-, hvr⟩, -⟩, -⟩ := accepted_withLayout_of_not_sizeOK hu (mt hlegal.mpr hz) _
    exact ⟨t, v, ht, hv, by rw [htr, hvr, hfield, hresp]⟩

/-! ### The start of a decode -/

/-- The acceptance step of a decode sets the port and the decoder, and nothing else (R125, R140). -/
theorem startDecode_frame (c : WaitingCommand) (s : State) :
    (startDecode c s).port = .busy c ∧ (startDecode c s).dphase = .sync ∧ (startDecode c s).didx = 0 ∧
      SameBytes s (startDecode c s) ∧ SameOutside s (startDecode c s) ∧ SameBlock s (startDecode c s) ∧
      (startDecode c s).responses = s.responses :=
  ⟨rfl, rfl, rfl, fun _ => rfl, ⟨rfl, rfl, rfl, rfl, rfl⟩, ⟨rfl, rfl⟩, rfl⟩

theorem exec_decode_of_ready (hr : Ready s) : exec .decode s = .next (startDecode .decode s) := accepted_of_ready hr _

theorem exec_readFrame_of_ready (hr : Ready s) : exec .readFrame s = .next (startDecode .readFrame s) :=
  accepted_of_ready hr _

/-- Settles O25: both commands are `startDecode` at a ready port. -/
theorem decodeCommandsStartTheDecoder : Obligations.DecodeCommandsStartTheDecoder := by
  intro s hr
  exact ⟨decode_encode (i := .decode) rfl, decode_encode (i := .readFrame) rfl,
    ⟨_, exec_decode_of_ready hr, startDecode_frame .decode s⟩,
    ⟨_, exec_readFrame_of_ready hr, startDecode_frame .readFrame s⟩⟩

/-! ### The decoder's table, row by row (R123) -/

theorem takeByte_sync (ha : awaitsSource s = true) (hp : s.dphase = .sync) :
    takeByte SYNC s = .next (acceptSync s) := by
  simp [takeByte, ha, hp]

theorem takeByte_of_ne_sync {w : Byte} (ha : awaitsSource s = true) (hp : s.dphase = .sync) (hw : w ≠ SYNC) :
    takeByte w s = abort (.frameSyncError w) s := by
  simp [takeByte, ha, hp, hw]

theorem takeByte_esc (ha : awaitsSource s = true) (hp : s.dphase = .normal) :
    takeByte ESC s = .next (setDecoder .escSeen s.didx s) := by
  simp [takeByte, ha, hp]

theorem takeByte_literal {w : Byte} (ha : awaitsSource s = true) (hp : s.dphase = .normal) (hw : w ≠ ESC) :
    takeByte w s = store w s := by
  simp [takeByte, ha, hp, hw]

theorem takeByte_operand (e : Byte) (ha : awaitsSource s = true) (hp : s.dphase = .escSeen) :
    takeByte e s = store (unesc e) s := by
  simp [takeByte, ha, hp]

/-- While a decode waits, a step is the row of R123 for the byte that the source gives. -/
theorem step_of_sourceByte {w : Byte} {rest : List SourceAnswer} (ha : awaitsSource s = true) (hw : HostWaits s)
    (h : s.source = .byte w :: rest) : step s = takeByte w { s with source := rest } :=
  step_of_byte (nextTurn_of_sourceAnswer ha hw h) ha

/-- What `abort` does (R133), as O40 says it. -/
theorem abort_ends (e : Error) (s : State) : ∃ t, abort e s = .next t ∧ DecodeEnds ⟨e.status, e.rdata⟩ s t ∧
    SameBytes s t ∧ SameOutside s t ∧ SameBlock s t := (raisingAnErrorRespondsAndFreesThePort e s).2

/-- Settles O26: the two rows of SYNC; the refusing one is the same whether exec or a step runs it. -/
theorem syncStepAcceptsOnlyTheSyncMarker : Obligations.SyncStepAcceptsOnlyTheSyncMarker := by
  intro s ha hp
  refine ⟨⟨acceptSync s, takeByte_sync ha hp, ?_, fun i hi => ?_, rfl, rfl, rfl, rfl, ⟨rfl, rfl, rfl, rfl, rfl⟩,
    ⟨rfl, rfl⟩⟩, fun w hw => ?_, fun w rest hwaits hsrc hw => ?_⟩
  · rw [byteAt_acceptSync, if_pos rfl]
  · rw [byteAt_acceptSync, if_neg (by omega)]
  · obtain ⟨t, ht, hends⟩ := abort_ends (.frameSyncError w) s
    exact ⟨t, (takeByte_of_ne_sync ha hp hw).trans ht, hends⟩
  · obtain ⟨t, ht, hends⟩ := abort_ends (.frameSyncError w) { s with source := rest }
    have hrow : takeByte w { s with source := rest } = abort (.frameSyncError w) { s with source := rest } :=
      takeByte_of_ne_sync ha hp hw
    exact ⟨t, (step_of_sourceByte ha hwaits hsrc).trans (hrow.trans ht), hends⟩

theorem step_of_sourceEof {rest : List SourceAnswer} (ha : awaitsSource s = true) (hw : HostWaits s)
    (h : s.source = .eof :: rest) :
    step s = abort (.unexpectedEndOfStream s.didx) { s with source := rest } := by
  simp only [step, nextTurn_of_sourceAnswer ha hw h, takeEof]

theorem step_of_sourceIoerr {rest : List SourceAnswer} (ha : awaitsSource s = true) (hw : HostWaits s)
    (h : s.source = .ioerr :: rest) : step s = abort (.sourceError s.didx) { s with source := rest } := by
  simp only [step, nextTurn_of_sourceAnswer ha hw h, takeSourceError]

/-- Settles O30: in every phase the step is an `abort` with the answer taken. -/
theorem endOfStreamAndSourceErrorEndTheDecode : Obligations.EndOfStreamAndSourceErrorEndTheDecode := by
  intro s rest ha hw
  constructor
  · intro hsrc
    obtain ⟨t, ht, hends⟩ := abort_ends (.unexpectedEndOfStream s.didx) { s with source := rest }
    exact ⟨t, (step_of_sourceEof ha hw hsrc).trans ht, hends⟩
  · intro hsrc
    obtain ⟨t, ht, hends⟩ := abort_ends (.sourceError s.didx) { s with source := rest }
    exact ⟨t, (step_of_sourceIoerr ha hw hsrc).trans ht, hends⟩

/-! ### Storing a logical byte -/

/-- Store below CAP does what R129 to R131 say of a logical byte. -/
theorem store_storesLogicalByte (v : Byte) (hlt : s.didx < s.cap.val) :
    ∃ t, store v s = .next t ∧ StoresLogicalByte v s t := by
  have hself : byteAt (setByte s.didx v s) s.didx = v := byteAt_setByte_self s s.didx v
  have hframe : SameBytesOutside s.didx 1 s (setByte s.didx v s) := sameBytesOutside_setByte s.didx v s
  have hends (x : Response) : DecodeEnds x s (deliver x (endDecode (setByte s.didx v s))) := ⟨⟨rfl, rfl⟩, rfl, rfl⟩
  rcases store_cases s v hlt with ⟨h2, hz, hr⟩ | ⟨-, h3, hlast, hr⟩ | ⟨hsize, hlast, hr⟩
  · exact ⟨_, hr, hself, hframe, ⟨rfl, rfl, rfl, rfl, rfl⟩, ⟨rfl, rfl⟩, .inl ⟨h2, hz, hends _⟩⟩
  · exact ⟨_, hr, hself, hframe, ⟨rfl, rfl, rfl, rfl, rfl⟩, ⟨rfl, rfl⟩, .inr (.inl ⟨h3, hlast, hends _⟩)⟩
  · exact ⟨_, hr, hself, hframe, ⟨rfl, rfl, rfl, rfl, rfl⟩, ⟨rfl, rfl⟩,
      .inr (.inr ⟨hsize, hlast, rfl, rfl, rfl, rfl⟩)⟩

/-- Settles O27: a literal is the row that stores its own byte. -/
theorem literalStoresItsByte : Obligations.LiteralStoresItsByte := by
  intro s w ha hp hlt hw
  obtain ⟨t, ht, hstores⟩ := store_storesLogicalByte w hlt
  exact ⟨t, (takeByte_literal ha hp hw).trans ht, hstores⟩

/-- Store sets the phase in every case and never reads it. -/
theorem store_setDecoder_phase (v : Byte) (p : DPhase) (s : State) :
    store v (setDecoder p s.didx s) = store v s := rfl

theorem awaitsSource_setDecoder {p : DPhase} {i : Nat} (ha : awaitsSource s = true) (hp : p ≠ .idle) :
    awaitsSource (setDecoder p i s) = true := by
  obtain ⟨hreset, hdec, -⟩ := (awaitsSource_iff s).mp ha
  exact (awaitsSource_iff _).mpr ⟨hreset, hdec, hp⟩

/-- The ESCAPED symbol stores `unesc` of its operand, begun before or after its escape byte (R62, R127, R128). -/
theorem exec_wireEscaped_eq_store (e : Byte) (ha : awaitsSource s = true)
    (hp : s.dphase = .escSeen ∨ s.dphase = .normal) : exec (.wireEscaped e) s = store (unesc e) s := by
  rcases hp with hp | hp
  · exact (if_pos hp).trans (takeByte_operand e ha hp)
  · have hesc : awaitsSource (setDecoder .escSeen s.didx s) = true := awaitsSource_setDecoder ha nofun
    calc exec (.wireEscaped e) s
      _ = thenTake e (takeByte ESC s) := if_neg (by simp [hp])
      _ = takeByte e (setDecoder .escSeen s.didx s) := by rw [takeByte_esc ha hp, thenTake, if_pos hesc]
      _ = store (unesc e) (setDecoder .escSeen s.didx s) := takeByte_operand e hesc rfl
      _ = store (unesc e) s := store_setDecoder_phase _ _ s

/-- Settles O28: `exec_wireEscaped_eq_store`, for every operand. -/
theorem escapedStoresOperandPlusOne : Obligations.EscapedStoresOperandPlusOne := by
  intro s e ha hp hlt
  obtain ⟨t, ht, hstores⟩ := store_storesLogicalByte (unesc e) hlt
  exact ⟨t, unesc e, (exec_wireEscaped_eq_store e ha hp).trans ht, unesc_toNat e, hstores⟩

/-- The step of an escape byte in NORMAL (R127). -/
theorem step_of_escapeByte {rest : List SourceAnswer} (ha : awaitsSource s = true) (hp : s.dphase = .normal)
    (hw : HostWaits s) (h : s.source = .byte ESC :: rest) :
    step s = .next (setDecoder .escSeen s.didx { s with source := rest }) :=
  (step_of_sourceByte ha hw h).trans (takeByte_esc (s := { s with source := rest }) ha hp)

/-- The step of an operand stores the escaped byte (R128). -/
theorem step_of_operand {e : Byte} {rest : List SourceAnswer} (ha : awaitsSource s = true) (hp : s.dphase = .escSeen)
    (hw : HostWaits s) (h : s.source = .byte e :: rest) : step s = store (unesc e) { s with source := rest } :=
  (step_of_sourceByte ha hw h).trans (takeByte_operand (s := { s with source := rest }) e ha hp)

/-- Settles O29: the two steps, and the symbol, store the same byte in the same state. -/
theorem escapeByteThenOperandRunTheSymbol : Obligations.EscapeByteThenOperandRunTheSymbol := by
  intro s e rest ha hp hw hsrc
  refine ⟨_, step_of_escapeByte ha hp hw hsrc, rfl, rfl, rfl, rfl, fun _ => rfl, rfl, ?_⟩
  have hesc : awaitsSource (setDecoder .escSeen s.didx { s with source := .byte e :: rest }) = true :=
    awaitsSource_setDecoder (s := { s with source := .byte e :: rest }) ha nofun
  calc step (setDecoder .escSeen s.didx { s with source := .byte e :: rest })
    _ = store (unesc e) (setDecoder .escSeen s.didx { s with source := rest }) := step_of_operand hesc rfl hw rfl
    _ = store (unesc e) { s with source := rest } := store_setDecoder_phase _ _ { s with source := rest }
    _ = exec (.wireEscaped e) { s with source := rest } :=
      (exec_wireEscaped_eq_store (s := { s with source := rest }) e ha (.inr hp)).symm

/-! ### No step faults -/

/-- Where nothing faults past the port, nothing faults at it: the port only refuses. -/
theorem accepted_ne_fault {r : Result} {f : Fault} (h : r ≠ .fault f) : accepted s r ≠ .fault f := by
  unfold accepted
  split
  · nofun
  · exact h

/-- No command faults, in any state. -/
theorem exec_command_ne_fault {i : Instr} {y : Transaction} (he : encode i = .transaction y) (s : State) (f : Fault) :
    exec i s ≠ .fault f := by
  by_cases hd : i = .decode
  · subst hd
    exact accepted_ne_fault nofun
  by_cases hr : i = .readFrame
  · subst hr
    exact accepted_ne_fault nofun
  by_cases hw : i = .writeFrame
  · subst hw
    refine accepted_ne_fault ?_
    rcases withLayout_cases s (fun n => .next (startWrite n s)) with ⟨-, hk⟩ | ⟨-, hk⟩ <;> rw [hk] <;> nofun
  obtain ⟨r, hacc, u, x, -, hr⟩ := answeredAtOnce_of_not_waiting he hd hr hw s
  rw [hacc, hr]
  exact accepted_ne_fault nofun

theorem rejectTransaction_ne_fault (r : Reject) (x : Transaction) (s : State) (f : Fault) :
    rejectTransaction r x s ≠ .fault f := by
  cases r with
  | unassignedCode code => exact accepted_ne_fault nofun
  | operandShape | notSync | truncated | trailing => nofun

theorem store_ne_fault {v : Byte} (hf : DecoderInv.InFrame s) (f : Fault) : store v s ≠ .fault f := by
  obtain ⟨t, ht, -⟩ := store_storesLogicalByte v (didx_lt_cap_of_inFrame hf)
  rw [ht]
  nofun

/-- Only a row that stores could fault, and the invariant keeps DIDX below CAP there (R129). -/
theorem takeByte_ne_fault {w : Byte} (hinv : Inv s) (ha : awaitsSource s = true) (f : Fault) :
    takeByte w s ≠ .fault f := by
  have hreset := ((awaitsSource_iff s).mp ha).1
  rcases takeByte_cases s w ha with ⟨-, -, hr⟩ | ⟨-, -, hr⟩ | ⟨-, -, hr⟩ | ⟨hp, -, hr⟩ | ⟨hp, hr⟩ <;> rw [hr]
  · nofun
  · nofun
  · nofun
  · exact store_ne_fault (hinv.inFrame hreset (.inl hp)) f
  · exact store_ne_fault (hinv.inFrame hreset (.inr hp)) f

/-- Settles O56, by the turn of the step: a command never faults, a byte of the source does not under the invariant, and every
other turn leads to a next state. -/
theorem noStepFaultsUnderTheInvariant : Obligations.NoStepFaultsUnderTheInvariant := by
  intro s f hinv
  rcases nextTurn_cases s with ⟨rest, -, hn⟩ | ⟨x, rest, -, -, hn⟩ | ⟨hs, hn⟩ | ⟨hs, hn⟩
  · simp only [step, hn]
    nofun
  · simp only [step, hn]
    rcases decodeTransaction_cases x with ⟨i, y, hd, he⟩ | hd | hd <;> simp only [decode, hd]
    · exact exec_command_ne_fault he _ f
    · exact rejectTransaction_ne_fault _ x _ f
    · exact rejectTransaction_ne_fault _ x _ f
  · rcases answerTurn_cases { s with host := hs } with ⟨a, src, ha, -, ht⟩ | ⟨a, snk, -, -, ht⟩ | ht <;> rw [ht] at hn
    · cases a with
      | byte w =>
        rw [step_of_byte hn ha]
        exact takeByte_ne_fault ((inv_agents hs src s.sink).mpr hinv) ha f
      | eof =>
        simp only [step, hn]
        nofun
      | ioerr =>
        simp only [step, hn]
        nofun
    · simp only [step, hn]
      cases a <;> nofun
    · simp only [step, hn]
      nofun
  · simp only [step, hn]
    nofun

/-! ### A whole frame decoded -/

/-- The wire bytes of one logical byte, taken in NORMAL, store it: in one step, or in two where it is escaped (R119). -/
theorem run_stores_of_esc {b : Byte} {rest : List SourceAnswer} (ha : awaitsSource s = true) (hp : s.dphase = .normal)
    (hw : HostWaits s) (hsrc : s.source = (esc b).map .byte ++ rest)
    (h : store b { s with source := rest } = .next t) : ∃ k, Host.Core.run Sys2Proof.core k s = .next t := by
  rcases esc_cases b with ⟨-, he, -⟩ | ⟨-, hne, he⟩ <;> rw [he] at hsrc
  · obtain ⟨u, hesc, -, -, -, -, -, -, hop⟩ := escapeByteThenOperandRunTheSymbol s (b - 1#8) rest ha hp hw hsrc
    have hstore : step u = store b { s with source := rest } := by
      rw [hop, exec_wireEscaped_eq_store (s := { s with source := rest }) _ ha (.inr hp), unesc_sub_one]
    exact ⟨2, (run_succ_of_next hesc).trans (run_one (hstore.trans h))⟩
  · have hstore : step s = store b { s with source := rest } :=
      (step_of_sourceByte ha hw hsrc).trans (takeByte_literal (s := { s with source := rest }) ha hp hne)
    exact ⟨1, run_one (hstore.trans h)⟩

/-- A source that gives these bytes escaped, and after them the answers `rest` (R119). -/
def wireAnswers (data : List Byte) (rest : List SourceAnswer) : List SourceAnswer :=
  (data.flatMap esc).map .byte ++ rest

theorem wireAnswers_cons (b : Byte) (bs : List Byte) (rest : List SourceAnswer) :
    wireAnswers (b :: bs) rest = (esc b).map .byte ++ wireAnswers bs rest := by
  simp [wireAnswers]

/-- The bytes still to come written from DIDX on, with the source at `rest`. -/
def filled (data : List Byte) (rest : List SourceAnswer) (s : State) : State :=
  { memWrite s.didx data s with source := rest }

/-- What a decode leaves once the bytes still to come have completed its frame (R131). -/
def decoded (data : List Byte) (rest : List SourceAnswer) (s : State) : State :=
  deliver (completionResponse s.port (filled data rest s)) (endDecode (filled data rest s))

/-- `data` is what is left of a frame of legal size `n`: it ends at the checksum, and the frame's size byte, stored already or
still in `data`, is `n` (R22, R130). -/
structure RestOfFrame (n : Nat) (data : List Byte) (s : State) : Prop where
  legal : 1 ≤ n ∧ n ≤ maxSize s
  length : s.didx + data.length = 3 + n
  size : (byteAt (memWrite s.didx data s) 2).toNat = n

/-- The rest of a frame of legal size lies below CAP (R23). -/
theorem RestOfFrame.didx_lt_cap {n : Nat} {b : Byte} {bs : List Byte} (h : RestOfFrame n (b :: bs) s) :
    s.didx < s.cap.val := by
  obtain ⟨hlo, hhi⟩ := h.legal
  have hlen := h.length
  rw [maxSize_eq] at hhi
  rw [List.length_cons] at hlen
  omega

/-- The next byte of a frame of legal size is no bad size byte. -/
theorem RestOfFrame.not_bad_size {n : Nat} {b : Byte} {bs : List Byte} (h : RestOfFrame n (b :: bs) s) :
    ¬ (s.didx = 2 ∧ ¬ sizeOK s b) := by
  rintro ⟨h2, hz⟩
  have hb : byteAt (memWrite s.didx (b :: bs) s) (s.didx + 0) = b := byteAt_memWrite_data rfl s.didx s
  rw [h2] at hb
  have hn := h.size
  rw [h2, hb] at hn
  exact hz (by rw [sizeOK, hn]; exact h.legal)

/-- Past the size byte, the size stored is the frame's. -/
theorem RestOfFrame.size_stored {n : Nat} {data : List Byte} (h : RestOfFrame n data s) (h3 : 3 ≤ s.didx) :
    (byteAt s 2).toNat = n := by
  rw [← h.size, sameBytesOutside_memWrite s.didx data s 2 (.inl h3)]

/-- The step of a byte that is not the last (R130). -/
theorem RestOfFrame.store_next {n : Nat} {b c : Byte} {bs : List Byte} (h : RestOfFrame n (b :: c :: bs) s) :
    store b s = .next (setDecoder .normal (s.didx + 1) (setByte s.didx b s)) := by
  have hlen := h.length
  simp only [List.length_cons] at hlen
  rcases store_cases s b h.didx_lt_cap with ⟨h2, hz, -⟩ | ⟨-, h3, hlast, -⟩ | ⟨-, -, hr⟩
  · exact absurd ⟨h2, hz⟩ h.not_bad_size
  · have := h.size_stored h3
    omega
  · exact hr

/-- What is left of the frame after that step. -/
theorem RestOfFrame.tail {n : Nat} {b : Byte} {bs : List Byte} (h : RestOfFrame n (b :: bs) s) :
    RestOfFrame n bs (setDecoder .normal (s.didx + 1) (setByte s.didx b s)) := by
  have hlen : s.didx + 1 + bs.length = 3 + n := by
    rw [← h.length, List.length_cons]
    omega
  exact ⟨h.legal, hlen, h.size⟩

/-- The step of the last byte, the checksum (R130, R131). -/
theorem RestOfFrame.store_last {n : Nat} {b : Byte} (h : RestOfFrame n [b] s) :
    store b s = .next (deliver (completionResponse s.port (setByte s.didx b s)) (endDecode (setByte s.didx b s))) := by
  have hlen := h.length
  have hpos := h.legal.1
  rw [List.length_singleton] at hlen
  have h3 : 3 ≤ s.didx := by omega
  have hsize := h.size_stored h3
  rcases store_cases s b h.didx_lt_cap with ⟨h2, -, -⟩ | ⟨-, -, -, hr⟩ | ⟨-, hlast, -⟩
  · omega
  · exact hr
  · exact absurd ⟨h3, by omega⟩ hlast

/-- From NORMAL on, the escaped bytes that are left of a frame are stored one after the other, the last one completes the frame,
and the answers after it are not taken (R119, R134). -/
theorem run_decodes_rest {n : Nat} {data : List Byte} {rest : List SourceAnswer} (hne : data ≠ [])
    (hf : RestOfFrame n data s) (ha : awaitsSource s = true) (hp : s.dphase = .normal) (hw : HostWaits s)
    (hsrc : s.source = wireAnswers data rest) :
    ∃ k, Host.Core.run Sys2Proof.core k s = .next (decoded data rest s) := by
  induction data generalizing s with
  | nil => exact absurd rfl hne
  | cons b bs ih =>
    rw [wireAnswers_cons] at hsrc
    have hf' : RestOfFrame n (b :: bs) { s with source := wireAnswers bs rest } := ⟨hf.legal, hf.length, hf.size⟩
    cases bs with
    | nil => exact run_stores_of_esc ha hp hw hsrc hf'.store_last
    | cons c bs =>
      obtain ⟨j, hj⟩ := run_stores_of_esc ha hp hw hsrc hf'.store_next
      obtain ⟨k, hk⟩ := ih nofun hf'.tail (awaitsSource_setDecoder ha nofun) rfl hw rfl
      exact ⟨j + k, run_add hj hk⟩

/-- The bytes of a wire image after the sync are the frame that a decode in NORMAL reads at offset 1. -/
theorem restOfFrame_frameBytes {w : State} {n : Nat} (hn : (byteAt w 2).toNat = n) (hlegal : 1 ≤ n ∧ n ≤ maxSize s)
    (hd : s.didx = 1) : RestOfFrame n (frameBytes w n) s := by
  have h2 : (frameBytes w n)[1]? = some (byteAt w 2) := frameBytes_getElem? w (by omega)
  refine ⟨hlegal, by rw [hd, frameBytes_length]; omega, ?_⟩
  rw [hd, byteAt_memWrite_data h2 1 s, hn]

/-- A decode that waits for the sync reads the whole wire image of a legal frame; DECODE and READ_FRAME alike (R119, R140). -/
theorem run_decodes_wireImage {w : State} {n : Nat} {rest : List SourceAnswer} (hn : (byteAt w 2).toNat = n)
    (hlegal : 1 ≤ n ∧ n ≤ maxSize s) (ha : awaitsSource s = true) (hp : s.dphase = .sync) (hw : HostWaits s)
    (hsrc : s.source = (wireImage w n).map .byte ++ rest) :
    ∃ k, Host.Core.run Sys2Proof.core k s = .next (decoded (frameBytes w n) rest (acceptSync s)) := by
  have hsync : step s = .next (acceptSync { s with source := wireAnswers (frameBytes w n) rest }) :=
    (step_of_sourceByte ha hw hsrc).trans
      (takeByte_sync (s := { s with source := wireAnswers (frameBytes w n) rest }) ha hp)
  have hne : frameBytes w n ≠ [] := List.ne_nil_of_length_pos (by rw [frameBytes_length]; omega)
  obtain ⟨k, hk⟩ := run_decodes_rest (s := acceptSync { s with source := wireAnswers (frameBytes w n) rest }) hne
    (restOfFrame_frameBytes hn hlegal rfl) (awaitsSource_setDecoder ha nofun) rfl hw rfl
  exact ⟨k + 1, (run_succ_of_next hsync).trans hk⟩

/-! ### The buffer after a whole frame -/

theorem byteAt_decoded_acceptSync (data : List Byte) (rest : List SourceAnswer) (s : State) (i : Nat) :
    byteAt (decoded data rest (acceptSync s)) i = byteAt (memWrite 1 data (setByte 0 SYNC s)) i := rfl

theorem byteAt_decoded_zero (data : List Byte) (rest : List SourceAnswer) (s : State) :
    byteAt (decoded data rest (acceptSync s)) 0 = SYNC := by
  rw [byteAt_decoded_acceptSync, sameBytesOutside_memWrite 1 data _ 0 (.inl Nat.one_pos), byteAt_setByte_self]

/-- The frame read is the frame that the wire image was made of. -/
theorem byteAt_decoded_frame (w : State) (rest : List SourceAnswer) (s : State) {n i : Nat} (hlo : 1 ≤ i)
    (hhi : i ≤ 2 + n) : byteAt (decoded (frameBytes w n) rest (acceptSync s)) i = byteAt w i := by
  obtain ⟨k, rfl⟩ := Nat.exists_eq_add_of_le hlo
  rw [byteAt_decoded_acceptSync, byteAt_memWrite_data (frameBytes_getElem? w (by omega))]

theorem byteAt_decoded_above (w : State) (rest : List SourceAnswer) (s : State) {n i : Nat} (hi : 2 + n < i) :
    byteAt (decoded (frameBytes w n) rest (acceptSync s)) i = byteAt s i := by
  rw [byteAt_decoded_acceptSync, sameBytesOutside_memWrite 1 _ _ i (.inr (by rw [frameBytes_length]; omega)),
    sameBytesOutside_setByte 0 SYNC s i (.inr (by omega))]

/-- DECODE makes no check of the checksum (R131). -/
theorem completionResponse_decode (s : State) : completionResponse (.busy .decode) s = ⟨.ok, .none⟩ := by
  simp [completionResponse]

/-- Settles O32: the acceptance step, then `run_decodes_wireImage`. -/
theorem decodeReadsBackAWireImage : Obligations.DecodeReadsBackAWireImage := by
  intro w s n rest hr hn hlo hhi hhost hsrc
  have hstart : step s = .next (startDecode .decode { s with host := [] }) :=
    (stepRunsTheDecodedCommand s _ _ .decode hr hhost (decode_encode (i := .decode) rfl)).trans
      (exec_decode_of_ready (s := { s with host := [] }) hr)
  have ha : awaitsSource (startDecode .decode { s with host := [] }) = true :=
    (awaitsSource_iff _).mpr ⟨hr.1, .inl rfl, nofun⟩
  obtain ⟨k, hk⟩ := run_decodes_wireImage (s := startDecode .decode { s with host := [] }) hn ⟨hlo, hhi⟩ ha rfl
    (fun _ _ h => nomatch h) hsrc
  refine ⟨k + 1, _, (run_succ_of_next hstart).trans hk, ⟨⟨rfl, ?_⟩, rfl, rfl⟩, rfl, byteAt_decoded_zero _ _ _,
    fun i h1 h2 => byteAt_decoded_frame w rest _ h1 h2, fun i hi => byteAt_decoded_above w rest _ hi⟩
  exact congrArg (s.responses ++ [·]) (completionResponse_decode _)

end Sys2Proof.Machine
end

section
/-! The stream commands (44_stream.md R140 to R146): the step in which WRITE_FRAME hands its frame to the sink, the sink's
answer that ends it, and READ_FRAME as the inverse of WRITE_FRAME. -/

namespace Sys2Proof.Machine

variable {s t : State}

/-! ### The step that hands the frame over -/

theorem exec_writeFrame_of_sizeOK (hr : Ready s) (h : sizeOK s (sizeField s)) :
    exec .writeFrame s = .next (startWrite (sizeField s).toNat s) := accepted_withLayout_of_sizeOK hr h _

/-- What the sink gets is the wire image of the buffer as it stands afterwards, stamp included. -/
theorem startWrite_sinkGot (n : Nat) (s : State) :
    (startWrite n s).sinkGot = s.sinkGot ++ [wireImage (startWrite n s) n] := rfl

theorem sizeField_startWrite {n : Nat} (s : State) (h : 1 ≤ n) : sizeField (startWrite n s) = sizeField s :=
  sizeField_stamp s h

/-- The frame written is fresh: the stamp stands where the sum does not read. -/
theorem storedSum_startWrite (n : Nat) (s : State) :
    storedSum (startWrite n s) n = frameSum (startWrite n s) n :=
  (storedSum_stamp s n).trans (frameSum_stamp s n).symm

/-- Settles O33: with a legal size the command is `startWrite`. -/
theorem writeFrameStampsAndHandsOver : Obligations.WriteFrameStampsAndHandsOver := by
  intro s hr
  refine ⟨decode_encode (i := .writeFrame) rfl, fun hz => ?_⟩
  have hkeep := startWrite_keepsAgents (sizeField s).toNat s
  exact ⟨_, exec_writeFrame_of_sizeOK hr hz, rfl, storedSum_stamp s _, sameBytesOutside_setByte _ _ s,
    startWrite_sinkGot _ s, ⟨rfl, rfl⟩, hkeep.block, hkeep.responses, hkeep.source, hkeep.sink, hkeep.host, rfl⟩

/-- Settles O35: a stamp where the checksum is already right changes no byte, so the wire image is the same too. -/
theorem freshChecksumIsRewrittenUnchanged : Obligations.FreshChecksumIsRewrittenUnchanged := by
  intro s hr hz hfresh
  have hbytes : SameBytes s (startWrite (sizeField s).toNat s) := sameBytes_stamp hfresh
  refine ⟨_, exec_writeFrame_of_sizeOK hr hz, hbytes, ?_⟩
  rw [startWrite_sinkGot, wireImage_congr fun i _ _ => hbytes i]
  rfl

/-! ### The sink's answer -/

theorem awaitsSource_of_awaitsSink (h : awaitsSink s = true) : awaitsSource s = false := by
  obtain ⟨-, hp⟩ := (awaitsSink_iff s).mp h
  simp [awaitsSource, hp]

/-- While WRITE_FRAME waits and the host does too, the step is the sink's next answer (R144). -/
theorem step_of_sinkAnswer {a : SinkAnswer} {rest : List SinkAnswer} (ha : awaitsSink s = true) (hw : HostWaits s)
    (h : s.sink = a :: rest) : step s = takeSinkAnswer a { s with sink := rest } := by
  have hturn : nextTurn s = ⟨.sinkAnswers a, { s with sink := rest }⟩ := by
    rw [nextTurn_of_hostWaits hw (portFree_of_awaits (.inr ha))]
    simp [answerTurn, awaitsSource_of_awaitsSink ha, ha, h]
  simp only [step, hturn]

/-- Settles O34: either answer is one response, and a response touches no byte. -/
theorem sinkAnswerEndsWriteFrame : Obligations.SinkAnswerEndsWriteFrame := by
  intro s rest ha hw
  constructor
  · intro hok
    exact ⟨_, step_of_sinkAnswer ha hw hok, BufferEdit.refl.answersInOneStep _, fun _ => rfl⟩
  · intro herr
    exact ⟨_, step_of_sinkAnswer ha hw herr, BufferEdit.refl.answersInOneStep _, fun _ => rfl⟩

/-! ### READ_FRAME after WRITE_FRAME -/

/-- A fresh checksum passes READ_FRAME's check (R140), and DECODE makes none. -/
theorem completionResponse_of_fresh (port : Port)
    (h : storedSum t (sizeField t).toNat = frameSum t (sizeField t).toNat) :
    completionResponse port t = ⟨.ok, .none⟩ := if_neg fun hne => hne.2 h

/-- Whether the checksum is fresh is read from the offsets 1 .. 2 + n alone, whatever the capacity (R22, R105). -/
theorem fresh_congr {n : Nat} (h : ∀ i, 1 ≤ i → i ≤ 2 + n → byteAt t i = byteAt s i)
    (hfresh : storedSum s n = frameSum s n) : storedSum t n = frameSum t n := by
  have hstored : storedSum t n = storedSum s n := h _ (by simp only [offCk]; omega) le_rfl
  have hsum : frameSum t n = frameSum s n := frameSum_congr fun i hlo hhi => h i hlo (by omega)
  rw [hstored, hsum, hfresh]

/-- A frame with a fresh checksum, read whole, passes READ_FRAME's check. -/
theorem completionResponse_filled {w : State} {n : Nat} (port : Port) (rest : List SourceAnswer) (s : State)
    (hn : (byteAt w 2).toNat = n) (hfresh : storedSum w n = frameSum w n) :
    completionResponse port (filled (frameBytes w n) rest (acceptSync s)) = ⟨.ok, .none⟩ := by
  have hframe : ∀ i, 1 ≤ i → i ≤ 2 + n →
      byteAt (filled (frameBytes w n) rest (acceptSync s)) i = byteAt w i :=
    fun i hlo hhi => byteAt_decoded_frame w rest s hlo hhi
  have hsize : (sizeField (filled (frameBytes w n) rest (acceptSync s))).toNat = n := by
    rw [sizeField, hframe offSize (by decide) (Nat.le_add_right _ _), hn]
  refine completionResponse_of_fresh port ?_
  rw [hsize]
  exact fresh_congr hframe hfresh

/-- READ_FRAME of the wire image of a legal frame whose checksum is fresh answers OK, with that frame in the buffer and
nothing after the frame taken (R134, R140). -/
theorem run_readFrame_of_fresh {w : State} {n : Nat} {rest : List SourceAnswer} (hr : Ready s)
    (hn : (byteAt w 2).toNat = n) (hlegal : 1 ≤ n ∧ n ≤ maxSize s) (hfresh : storedSum w n = frameSum w n)
    (hhost : s.host = [.command ⟨0x50#8, []⟩]) (hsrc : s.source = (wireImage w n).map .byte ++ rest) :
    ∃ k u, Host.Core.run Sys2Proof.core k s = .next u ∧ DecodeEnds ⟨.ok, .none⟩ s u ∧ u.source = rest ∧
      byteAt u 0 = SYNC ∧ ∀ i, 1 ≤ i → i ≤ 2 + n → byteAt u i = byteAt w i := by
  have hstart : step s = .next (startDecode .readFrame { s with host := [] }) :=
    (stepRunsTheDecodedCommand s _ _ .readFrame hr hhost (decode_encode (i := .readFrame) rfl)).trans
      (exec_readFrame_of_ready (s := { s with host := [] }) hr)
  have ha : awaitsSource (startDecode .readFrame { s with host := [] }) = true :=
    (awaitsSource_iff _).mpr ⟨hr.1, .inr rfl, nofun⟩
  obtain ⟨k, hk⟩ := run_decodes_wireImage (s := startDecode .readFrame { s with host := [] }) hn hlegal ha rfl
    (fun _ _ h => nomatch h) hsrc
  refine ⟨k + 1, _, (run_succ_of_next hstart).trans hk, ⟨⟨rfl, ?_⟩, rfl, rfl⟩, rfl, byteAt_decoded_zero _ _ _,
    fun i hlo hhi => byteAt_decoded_frame w rest _ hlo hhi⟩
  exact congrArg (s.responses ++ [·]) (completionResponse_filled _ rest _ hn hfresh)

/-- Settles O37: what WRITE_FRAME handed over is the wire image of a legal frame that it has stamped, which is what
`run_readFrame_of_fresh` asks for. -/
theorem readFrameReadsWhatWriteFrameWrote : Obligations.ReadFrameReadsWhatWriteFrameWrote := by
  intro w t s wire rest hw hz hwrite hgot hr hmax hhost hsrc
  cases (exec_writeFrame_of_sizeOK hw hz).symm.trans hwrite
  have hwire : wireImage (startWrite (sizeField w).toNat w) (sizeField w).toNat = wire := by
    rwa [startWrite_sinkGot, List.append_cancel_left_eq, List.singleton_inj] at hgot
  rw [← hwire] at hsrc
  have hsize : sizeField (startWrite (sizeField w).toNat w) = sizeField w := sizeField_startWrite w hz.1
  exact run_readFrame_of_fresh hr (congrArg BitVec.toNat hsize) ⟨hz.1, hmax⟩ (storedSum_startWrite _ w) hhost hsrc

end Sys2Proof.Machine
end

section
/-! Errors (60_exceptions.md R150, R153): the numbers of the statuses, and the answer to an unassigned code. -/

namespace Sys2Proof.Machine

variable {s : State}

/-! ### Status codes -/

/-- A status is read back from its number: the constructors stand in the order of R150's table. -/
theorem Status.ofNat_toNat_code (a : Status) : Status.ofNat a.code.toNat = a := by cases a <;> rfl

theorem Status.code_injective : Function.Injective Status.code :=
  Function.LeftInverse.injective (g := Status.ofNat ∘ BitVec.toNat) Status.ofNat_toNat_code

/-- Settles O39: the numbers are read off the definition, and `Status.code_injective` tells them apart. -/
theorem statusCodesAreAsTabled : Obligations.StatusCodesAreAsTabled :=
  ⟨rfl, rfl, rfl, rfl, rfl, rfl, rfl, rfl, rfl, fun _ _ h => Status.code_injective h⟩

/-! ### Unassigned codes -/

/-- A code is assigned if R59 assigns its number. -/
theorem mem_assignedCodes_of_toNat {code : Byte} {n : Nat} (hc : code.toNat = n)
    (hn : BitVec.ofNat 8 n ∈ assignedCodes) : code ∈ assignedCodes := by
  subst hc
  simpa using hn

/-- The decoder rejects an unassigned code before it looks at the operands (R60, R154 item 1). -/
theorem decodeTransaction_of_unassigned {x : Transaction} (h : x.code ∉ assignedCodes) :
    decodeTransaction x = .reject (.unassignedCode x.code) := by
  unfold decodeTransaction
  split
  case h_17 => rfl
  all_goals
    rename_i hc
    exact absurd (mem_assignedCodes_of_toNat hc (by decide)) h

theorem step_of_rejected_offer {u : State} {x : Transaction} {r : Reject} (hn : nextTurn s = ⟨.offer x, u⟩)
    (hd : decode (.transaction x) = .reject r) : step s = rejectTransaction r x u := by
  simp only [step, hn, hd]

/-- A ready port answers an unassigned code with the code, and does nothing else (R60, R153). -/
theorem rejectTransaction_unassignedCode_of_ready (hr : Ready s) (code : Byte) (x : Transaction) :
    rejectTransaction (.unassignedCode code) x s = .next (deliver ⟨.illegalCommand, .byte code⟩ s) :=
  accepted_of_ready hr _

/-- Settles O38: a ready port is free, so the turn is the host's offer, and the decoder rejects its code. -/
theorem unassignedCodeIsIllegalCommand : Obligations.UnassignedCodeIsIllegalCommand := by
  intro s x rest hr hhost hcode
  have hstep : step s = rejectTransaction (.unassignedCode x.code) x { s with host := rest } :=
    step_of_rejected_offer (nextTurn_of_command (portFree_of_ready hr) hhost) (decodeTransaction_of_unassigned hcode)
  exact ⟨_, hstep.trans (rejectTransaction_unassignedCode_of_ready (s := { s with host := rest }) hr x.code x),
    BufferEdit.refl.answersInOneStep _, byteAt_deliver _ _⟩

end Sys2Proof.Machine
end

section
/-! RESET and hazards (70_reset_and_hazards.md R172, R175, R183): RESET while a command is in progress, the port before the
first RESET, and a source or a sink that never answers. -/

namespace Sys2Proof.Machine

variable {s : State}

/-! ### RESET while a command is in progress -/

theorem TakesAtMostOneAnswer.source_or_tail {t : State} (h : TakesAtMostOneAnswer s t) :
    t.source = s.source ∨ t.source = s.source.tail := by
  rcases h with hkept | ⟨-, a, htaken⟩
  · exact .inl hkept
  · exact .inr (by rw [htaken, List.tail_cons])

/-- A pending read is the only way RESET touches the source (R171, R172). -/
theorem resetBlock_source_of_not_awaits (h : awaitsSource s = false) : (resetBlock s).source = s.source := by
  rw [resetBlock_source, withdrawRead_of_not_awaits h]

/-- Settles O43: the step is `resetBlock`, which frees the port without a response and takes at most the pending read's
answer. -/
theorem resetEndsACommandWithoutResponse : Obligations.ResetEndsACommandWithoutResponse := by
  intro s rest h
  exact ⟨_, step_of_reset h, rfl, resetBlock_responses _, resetBlock_sink _, resetBlock_sinkGot _, resetBlock_host _,
    fun ha => resetBlock_source_of_not_awaits (s := { s with host := rest }) ha,
    (resetBlock_takesAtMostOneAnswer { s with host := rest }).source_or_tail⟩

/-! ### An agent that never answers -/

/-- The block waits for the source or the sink, and the one it waits for gives no answer (R183). -/
def Silent (s : State) : Prop := awaitsSource s = true ∧ s.source = [] ∨ awaitsSink s = true ∧ s.sink = []

theorem Silent.awaits (h : Silent s) : awaitsSource s = true ∨ awaitsSink s = true := h.imp And.left And.left

/-- No answer to take: the block never waits for both agents, so an answer the other one has ready is not asked for. -/
theorem Silent.answerTurn_eq (h : Silent s) : answerTurn s = ⟨.quiet, s⟩ := by
  rcases answerTurn_cases s with ⟨a, src, ha, hsrc, -⟩ | ⟨a, snk, ha, hsnk, -⟩ | hquiet
  · rcases h with ⟨-, hnil⟩ | ⟨hsink, -⟩
    · simp [hnil] at hsrc
    · simp [awaitsSource_of_awaitsSink hsink] at ha
  · rcases h with ⟨hsource, -⟩ | ⟨-, hnil⟩
    · simp [not_awaitsSink hsource] at ha
    · simp [hnil] at hsnk
  · exact hquiet

theorem Silent.step_eq (h : Silent s) (hw : HostWaits s) : step s = .next s := by
  have hturn : nextTurn s = ⟨.quiet, s⟩ :=
    (nextTurn_of_hostWaits hw (portFree_of_awaits h.awaits)).trans h.answerTurn_eq
  simp only [step, hturn]

/-- A step to the same state is every number of steps to it. -/
theorem run_of_step_self (h : step s = .next s) (k : Nat) : Host.Core.run Sys2Proof.core k s = .next s := by
  induction k with
  | zero => exact run_zero s
  | succ k ih => exact (run_succ_of_next h).trans ih

theorem port_ne_idle_of_not_portFree (h : portFree s = false) : s.port ≠ .idle := by
  intro hp
  simp [portFree, hp] at h

/-- Settles O44: in silence the step leads back to the state, and a block that waits holds the port. -/
theorem silenceHangsTheCommand : Obligations.SilenceHangsTheCommand := by
  intro s k hw hsilent
  have h : Silent s := hsilent
  exact ⟨run_of_step_self (h.step_eq hw) k, port_ne_idle_of_not_portFree (portFree_of_awaits h.awaits)⟩

/-! ### Before the first RESET -/

/-- Every command goes through the port's check first (R28, R175); the wire symbols alone do not. -/
theorem exec_command_eq_accepted {i : Instr} {y : Transaction} (he : encode i = .transaction y) (s : State) :
    ∃ r, exec i s = accepted s r := by
  cases i with
  | wireSync | wireEscaped | wireLiteral => simp [Sys2Proof.encode] at he
  | _ => exact ⟨_, rfl⟩

/-- Settles O41: a command is `accepted`, and before the first RESET the port accepts none. -/
theorem noCommandBeforeTheFirstReset : Obligations.NoCommandBeforeTheFirstReset := by
  intro s i x hreset he
  obtain ⟨r, hr⟩ := exec_command_eq_accepted he s
  rw [hr, accepted_of_no_reset hreset]

end Sys2Proof.Machine
end
